-- ==== Sys2Proof/Word.lean ====
section
/-! DEFINITION. The word types of the core (00_scope R7): 32-bit values, 8-bit bytes, 5-bit register indexes,
12-bit CSR indexes. -/

namespace Sys2Proof

/-- A 32-bit register value, address or extended immediate (R7, R11); arithmetic on it is modulo 2^32. -/
abbrev Word := BitVec 32

/-- One byte of Memory (20_memory R50). -/
abbrev Byte := BitVec 8

/-- An X register index, always the value of a 5-bit field (10_state R24). -/
abbrev Reg := BitVec 5

/-- A CSR index (30_encoding R88). -/
abbrev CsrIdx := BitVec 12

end Sys2Proof
end

