-- ==== Sys2Proof/Machine/Flags.lean ====
section
/-! DEFINITION. The core has no flags (10_state R35). What stands here are the comparisons that a comparison
instruction turns into 0 or 1 and a branch into its taken condition, which no step keeps (41_alu R156 to R159,
42_branch R171 to R176). -/

namespace Sys2Proof.Machine

/-- `bool(c)` (00_scope R11). -/
def boolWord (c : Bool) : Word := if c then 1#32 else 0#32

/-- `a <s b`: the two's-complement readings (00_scope R11). -/
def ltSigned (a b : Word) : Bool := a.slt b

/-- `a <u b`: the unsigned readings (00_scope R11). -/
def ltUnsigned (a b : Word) : Bool := a.ult b

end Sys2Proof.Machine
end

