-- ==== Sys2Proof/Config.lean ====
section
/-! DEFINITION. The configuration parameters of 00_scope R8 and the values the spec leaves open. The values the
spec gives the parameters are `Machine.config` (Machine/Params.lean). -/

namespace Sys2Proof

/-- `BYTE_ORDER` (R8, 20_memory R57): one order for every multi-byte access and for fetch. -/
inductive ByteOrder where
  | big
  | little
deriving DecidableEq, Repr

/-- `MISALIGNED` (R8, 20_memory R62, R63): what an access not aligned to its width does. -/
inductive Misaligned where
  | refuse
  | bytewise
deriving DecidableEq, Repr

/-- The parameters of R8; `TRAP_VECTOR_CSR` is not one, it is fixed (`trapVectorCsr`). -/
structure Config where
  /-- `DRAM_BASE`, the first address of the one mapped window. -/
  dramBase : Word
  /-- `DRAM_SIZE`, the capacity of Memory in bytes. -/
  dramSize : Nat
  byteOrder : ByteOrder
  misaligned : Misaligned
  /-- `RESET_PC`. -/
  resetPc : Word
  /-- `CSR_RESET`, a function of the index. -/
  csrReset : CsrIdx → Word
  /-- `TRAP_CAUSE_CSR`, the slot ECALL writes. -/
  trapCauseCsr : CsrIdx
  /-- `ECALL_CAUSE_VALUE`, what ECALL writes there. -/
  ecallCause : Word

/-- `TRAP_VECTOR_CSR`, fixed by the source (R8, 10_state R32). -/
def trapVectorCsr : CsrIdx := 0x305#12

/-- The constraints of R8 (decisions D3 and D8), which a model may assume. -/
abbrev Config.Admissible (c : Config) : Prop :=
  4 ≤ c.dramSize ∧ c.dramBase.toNat + c.dramSize ≤ 2 ^ 32 ∧ c.trapCauseCsr ≠ trapVectorCsr

/-- The "fixed diagnostic value" of ECALL (R250, D9): OPEN in the spec, so a constant with no body.
Log entry 7. -/
opaque Config.ecallCauseValue : Word

/-- The `alu_result` of an instruction whose rule gives none (40_pipeline R117: never used, may be left
undefined): a constant with no body. Log entry 19. -/
opaque Config.unusedAluResult : Word

end Sys2Proof
end

