-- ==== Sys2Proof/Machine/Bytes.lean ====
section
/-! DEFINITION. Access widths and byte order: how a value and its bytes correspond (20_memory R57 to R60, R64).
Every multi-byte access of the machine, the fetch among them, goes through these two functions. -/

namespace Sys2Proof.Machine

/-- The access widths of R64: 1, 2 or 4 bytes. -/
inductive Width where
  | byte
  | half
  | word
deriving DecidableEq, Repr

/-- The number `n` of bytes of a width. -/
def Width.bytes : Width → Nat
  | .byte => 1
  | .half => 2
  | .word => 4

/-- The low `8n` bits of `v` as `n` bytes, most significant first (R59). -/
def bytesMostFirst : Width → Word → List Byte
  | .byte, v => [v.extractLsb' 0 8]
  | .half, v => [v.extractLsb' 8 8, v.extractLsb' 0 8]
  | .word, v => [v.extractLsb' 24 8, v.extractLsb' 16 8, v.extractLsb' 8 8, v.extractLsb' 0 8]

/-- The concatenation `{b_0, b_1, ...}` of R58, the first byte most significant, as a 32-bit value. -/
def joinMostFirst (bs : List Byte) : Word :=
  bs.foldl (fun acc b => acc <<< 8 ||| b.setWidth 32) 0#32

/-- The bytes of an `n`-byte store, lowest address first (R59). -/
def bytesOf (bo : ByteOrder) (w : Width) (v : Word) : List Byte :=
  match bo with
  | .big => bytesMostFirst w v
  | .little => (bytesMostFirst w v).reverse

/-- The unsigned value of the bytes of a read, lowest address first (R58). -/
def valueOf (bo : ByteOrder) (bs : List Byte) : Word :=
  match bo with
  | .big => joinMostFirst bs
  | .little => joinMostFirst bs.reverse

end Sys2Proof.Machine
end

