-- ==== Sys2Proof/Machine/Params.lean ====
section
/-! DEFINITION. The values the spec gives the parameters of 00_scope R8. UNVERIFIED: they are the spec's own
decisions D1 to D9, not the source's (log entries 1 to 7). -/

namespace Sys2Proof.Machine

/-- The configuration of this machine: R8's table, with `ECALL_CAUSE_VALUE` left open. -/
def config : Config where
  dramBase := 0x80000000#32
  dramSize := 0x00100000
  byteOrder := .big
  misaligned := .refuse
  resetPc := 0x80000000#32
  csrReset := fun _ => 0#32
  trapCauseCsr := 0x342#12
  ecallCause := Config.ecallCauseValue

end Sys2Proof.Machine
end

