-- ==== Sys2Proof/Machine/SparseMap.lean ====
section
/-! DEFINITION. Sparse storage in one canonical form, for Memory and for the CSR bank (10_state R31: "sparse map
also valid"): entries with strictly rising keys, none equal to what an unlisted key reads as. -/

namespace Sys2Proof.Machine

/-- What an unlisted key reads as: 0 (Memory is zero-filled, 20_memory R50; a CSR slot reads 0 until it is
written, 92 D5). Log entries 4 and 12. -/
def SparseMap.unlisted (w : Nat) : BitVec w := 0#w

/-- The value at key `k`. -/
def SparseMap.get {w : Nat} : List (Nat × BitVec w) → Nat → BitVec w
  | [], _ => SparseMap.unlisted w
  | e :: rest, k => if e.1 = k then e.2 else SparseMap.get rest k

/-- Insert an entry before the first larger key. -/
def SparseMap.place {w : Nat} (k : Nat) (v : BitVec w) : List (Nat × BitVec w) → List (Nat × BitVec w)
  | [] => [(k, v)]
  | e :: rest => if k < e.1 then (k, v) :: e :: rest else e :: SparseMap.place k v rest

/-- Write `v` at key `k`: the old entry goes, and a new one comes unless `v` is what an unlisted key reads as. -/
def SparseMap.set {w : Nat} (m : List (Nat × BitVec w)) (k : Nat) (v : BitVec w) : List (Nat × BitVec w) :=
  let rest := m.filter (fun e => e.1 != k)
  if v = SparseMap.unlisted w then rest else SparseMap.place k v rest

/-- The canonical form. -/
abbrev SparseMap.WF {w : Nat} (m : List (Nat × BitVec w)) : Prop :=
  m.Pairwise (fun a b => a.1 < b.1) ∧ ∀ e ∈ m, e.2 ≠ SparseMap.unlisted w

end Sys2Proof.Machine
end

