-- ==== Sys2Proof/Machine/State.lean ====
section
/-! DEFINITION. The state of the core and its Memory (10_state R20 to R39, 20_memory R50), the reasons a step can
stop, and the state after reset (70_reset_and_hazards R290 to R295). -/

namespace Sys2Proof.Machine

/-- Memory: the bytes that are not zero, by global byte address, addresses strictly rising. Log entry 12. -/
abbrev Memory := List Host.Cell

/-- The CSR bank: the slots that are not zero, by index, indexes strictly rising. Log entry 13. -/
abbrev CsrBank := List (Nat × Word)

/-- The run state (R36). -/
inductive RunState where
  | running
  | halted
  | faulted
deriving DecidableEq, Repr

/-- All the state R39 names: `(pc, x[0..31], csr[0..4095], run)` and the bytes of Memory. -/
structure State where
  /-- The program counter (R20): any 32-bit value (R22). -/
  pc : Word
  /-- The X register file (R24); the entry of `x0` is never read and stays 0 (R25, log entry 21). -/
  x : Vector Word 32
  /-- The CSR bank (R31). -/
  csr : CsrBank
  /-- The run state (R36). -/
  run : RunState
  /-- Memory (20_memory R50). -/
  mem : Memory
deriving DecidableEq, Repr

/-- The layer that found an address out of bounds (20_memory R54), for diagnosis only. -/
inductive Layer where
  | bus
  | memory
deriving DecidableEq, Repr

/-- The errors of a step (60_exceptions R261). Each is a behaviour of the hardware: the run is then `Faulted` and
its state any value (R264), so a fault carries no state. -/
inductive Fault where
  /-- `Error(Fetch, layer, AddressOutOfBounds)`: raised by every step whose `pc .. pc+3` leave the window. Safe. -/
  | fetchOutOfBounds (layer : Layer)
  /-- `Error(Decode, -, UnmatchedOpcode)`: raised by every step whose word matches no row of the opcode table.
  Unsafe where the hardware decodes fewer or more words than the spec's masks (log entry 8). -/
  | unmatchedOpcode
  /-- `Error(Writeback, layer, AddressOutOfBounds)`: raised by a load or store whose bytes leave the window. Safe. -/
  | dataOutOfBounds (layer : Layer)
deriving DecidableEq, Repr

/-- The model's own stops (00_scope R16, 60_exceptions R265): cases to which the spec gives no meaning. -/
inductive Refusal where
  /-- Raised by no instruction of this model: every arm of `exec` has its meaning. Safe. -/
  | notModelled (mnemonic : String)
  /-- `refuse(MisalignedFetch)` (20_memory R63): raised by a step whose `pc` is no multiple of 4, under
  `MISALIGNED = Refuse`. Safe (log entry 5). -/
  | misalignedFetch
  /-- `refuse(MisalignedData)` (20_memory R62): raised by LH, LHU, SH at an odd address and LW, SW at an address
  that is no multiple of 4, under `MISALIGNED = Refuse`. Safe (log entry 5). -/
  | misalignedData
  /-- A step when the run is not Running (40_pipeline R112, D13): stuck, no step is defined. Raised by `step`.
  Safe (log entry 9). -/
  | noStepDefined (run : RunState)
  /-- A host load of zero bytes (20_memory R73, D24). Raised by the host operation `load`. Safe (log entry 17). -/
  | emptyLoad
  /-- A host load after the first step (20_memory R73, D14). Raised by the host operation `load`. Safe
  (log entry 17). -/
  | loadAfterFirstStep
deriving DecidableEq, Repr

/-- The top of mapped memory as a 32-bit address (R29). -/
def State.stackTop : Word := config.dramBase + BitVec.ofNat 32 config.dramSize

/-- The machine right after reset (R290 to R295): Memory zero, every register zero but `x2`, every CSR zero
(decision D5, log entry 4), the run Running, `pc` at `RESET_PC` (decision D4, log entry 3). -/
def State.reset : State where
  pc := config.resetPc
  x := (Vector.replicate 32 0#32).set 2 State.stackTop
  csr := []
  run := .running
  mem := []

end Sys2Proof.Machine
end

