-- ==== Sys2Proof/Machine/Ops.lean ====
section
/-! DEFINITION. The named operations over registers, the CSR bank, Memory and the program counter (00_scope R13),
the shared ends of the instruction meanings, and taking the one trap-like event, ECALL (60_exceptions R267). -/

namespace Sys2Proof.Machine

/-- The outcome of a meaning. -/
abbrev Outcome := Host.Outcome State Fault Refusal

/-! ## Registers, CSRs, program counter -/

/-- `x[i]`: register 0 always reads as zero (10_state R25). -/
def State.getX (s : State) (i : Reg) : Word :=
  if i = 0#5 then 0#32 else s.x[i.toNat]'(i.isLt)

/-- `x[i] <- v`: a write of register 0 is discarded (10_state R25, R26). -/
def State.setX (s : State) (i : Reg) (v : Word) : State :=
  if i = 0#5 then s else { s with x := s.x.set i.toNat v i.isLt }

/-- `csr[k]` (10_state R31). -/
def State.getCsr (s : State) (k : CsrIdx) : Word := SparseMap.get s.csr k.toNat

/-- `csr[k] <- v`: plain storage, every slot (10_state R31). -/
def State.setCsr (s : State) (k : CsrIdx) (v : Word) : State :=
  { s with csr := SparseMap.set s.csr k.toNat v }

/-- `pc <- t`: any 32-bit value (10_state R22). -/
def State.setPc (s : State) (t : Word) : State := { s with pc := t }

def State.setRun (s : State) (r : RunState) : State := { s with run := r }

def State.setMem (s : State) (m : Memory) : State := { s with mem := m }

/-- `pc + 4`, modulo 2^32 (10_state R23): the next instruction, and the link of a jump. -/
def State.pcPlus4 (s : State) : Word := s.pc + 4#32

/-- The byte of Memory at global address `a`. -/
def State.byteAt (s : State) (a : Nat) : Byte := SparseMap.get s.mem a

/-! ## Memory through the Bus -/

/-- Address `a` lies in the window `[DRAM_BASE, DRAM_BASE + DRAM_SIZE)` (00_scope R9). -/
abbrev InWindow (c : Config) (a : Nat) : Prop :=
  c.dramBase.toNat ≤ a ∧ a < c.dramBase.toNat + c.dramSize

/-- The `n` bytes from `addr` lie in the window (20_memory R53). -/
abbrev InBounds (c : Config) (addr : Word) (n : Nat) : Prop :=
  c.dramBase.toNat ≤ addr.toNat ∧ addr.toNat + n ≤ c.dramBase.toNat + c.dramSize

/-- Memory's canonical form: rising addresses, no zero byte listed, every address in the window. -/
abbrev Memory.wf (m : Memory) : Prop :=
  SparseMap.WF m ∧ ∀ e ∈ m, InWindow config e.1

/-- The CSR bank's canonical form: rising indexes, no zero value listed, every index a slot. -/
abbrev CsrBank.wf (b : CsrBank) : Prop :=
  SparseMap.WF b ∧ ∀ e ∈ b, e.1 < 4096

/-- Why an access does not happen: out of bounds (20_memory R52, R53) or not aligned to its width under
`MISALIGNED = Refuse` (R62, R63). -/
inductive AccessStop where
  | outOfBounds (layer : Layer)
  | misaligned
deriving DecidableEq, Repr

/-- `address` is a multiple of the access width (R61). -/
def aligned (addr : Word) (n : Nat) : Bool := addr.toNat % n == 0

/-- The Bus's and then Memory's bound check of `n` bytes, as integers without wrap-around (R52, R53). -/
def boundsStop (c : Config) (addr : Word) (n : Nat) : Option AccessStop :=
  if addr < c.dramBase then some (.outOfBounds .bus)
  else if c.dramSize < addr.toNat - c.dramBase.toNat + n then some (.outOfBounds .memory)
  else none

/-- What stops an access, if anything: the alignment test comes before the bound checks (R62, R266). -/
def accessStop (c : Config) (addr : Word) (n : Nat) : Option AccessStop :=
  match c.misaligned, aligned addr n with
  | .refuse, false => some .misaligned
  | .refuse, true | .bytewise, _ => boundsStop c addr n

/-- The `n` bytes from address `a` upwards. -/
def readBytes (m : Memory) (a : Nat) : Nat → List Byte
  | 0 => []
  | n + 1 => SparseMap.get m a :: readBytes m (a + 1) n

/-- Write the bytes from address `a` upwards. -/
def writeBytes (m : Memory) (a : Nat) : List Byte → Memory
  | [] => m
  | b :: bs => writeBytes (SparseMap.set m a b) (a + 1) bs

/-- `MemRead(addr, n)` (R58): the unsigned value of `8n` bits. -/
def memRead (c : Config) (m : Memory) (addr : Word) (w : Width) : Except AccessStop Word :=
  match accessStop c addr w.bytes with
  | some e => .error e
  | none => .ok (valueOf c.byteOrder (readBytes m addr.toNat w.bytes))

/-- `MemWrite(addr, n, v)` (R59): the low `8n` bits of `v`; an access that fails writes no byte (R55). -/
def memWrite (c : Config) (m : Memory) (addr : Word) (w : Width) (v : Word) : Except AccessStop Memory :=
  match accessStop c addr w.bytes with
  | some e => .error e
  | none => .ok (writeBytes m addr.toNat (bytesOf c.byteOrder w v))

/-- What a data access that stops makes of the step (40_pipeline R121, 60_exceptions R261, R265). -/
def dataStop : AccessStop → Outcome
  | .outOfBounds l => .fault (.dataOutOfBounds l)
  | .misaligned => .refused .misalignedData

/-! ## How an instruction ends: Writeback and the program-counter update (40_pipeline R120, R122) -/

/-- Nothing is written; `pc <- t`. -/
def retireTo (t : Word) (s : State) : Outcome := .next (s.setPc t)

/-- Nothing is written; `pc <- pc + 4`. -/
def retire (s : State) : Outcome := retireTo s.pcPlus4 s

/-- `x[rd] <- v`; `pc <- pc + 4`. -/
def retireReg (rd : Reg) (v : Word) (s : State) : Outcome := .next ((s.setX rd v).setPc s.pcPlus4)

/-- The load of `w` at `addr`: `x[rd] <- ext(MemRead(addr, n))`; the read is made even when `rd = 0`
(43_load_store R191). -/
def loadOp (c : Config) (w : Width) (ext : Word → Word) (rd : Reg) (addr : Word) (s : State) : Outcome :=
  match memRead c s.mem addr w with
  | .ok v => retireReg rd (ext v) s
  | .error e => dataStop e

/-- The store of `w` at `addr`: `MemWrite(addr, n, v)`, no register write (43_load_store R192). -/
def storeOp (c : Config) (w : Width) (addr : Word) (v : Word) (s : State) : Outcome :=
  match memWrite c s.mem addr w v with
  | .ok m => .next ((s.setMem m).setPc s.pcPlus4)
  | .error e => dataStop e

/-- A conditional branch: `pc <- pc + off` when taken, else `pc + 4`; nothing is written (42_branch R170). -/
def branchOp (taken : Bool) (off : Word) (s : State) : Outcome :=
  retireTo (if taken then s.pc + off else s.pcPlus4) s

/-- A jump: `x[rd] <- pc + 4`; `pc <- target` (44_jump R210, R211). -/
def jumpOp (rd : Reg) (target : Word) (s : State) : Outcome :=
  .next ((s.setX rd s.pcPlus4).setPc target)

/-- A CSR access: read the old value, write the new one always, then `x[rd] <- old` (46_csr R230). -/
def csrOp (rd : Reg) (k : CsrIdx) (new : Word → Word) (s : State) : Outcome :=
  .next (((s.setCsr k (new (s.getCsr k))).setX rd (s.getCsr k)).setPc s.pcPlus4)

/-! ## ECALL as trap entry, and the trap return (60_exceptions R267, R268) -/

/-- The new `pc` of ECALL: `csr[0x305]` read after Writeback wrote `csr[TRAP_CAUSE_CSR]` (40_pipeline R122),
spelled as a read over that write so that it does not wait for the open value (log entry 23). -/
def trapTarget (c : Config) (s : State) : Word :=
  if c.trapCauseCsr = trapVectorCsr then c.ecallCause else s.getCsr trapVectorCsr

/-- Take the trap: `csr[TRAP_CAUSE_CSR] <- ECALL_CAUSE_VALUE` and nothing else is saved; `pc <- csr[0x305]`, whole;
the run becomes Halted (R267, 47_system R250). -/
def takeTrap (c : Config) (s : State) : Outcome :=
  .next (((s.setCsr c.trapCauseCsr c.ecallCause).setRun .halted).setPc (trapTarget c s))

/-- Return from a trap: a no-op, it restores nothing and does not jump (R268, 47_system R251). -/
def trapReturn (s : State) : Outcome := retire s

end Sys2Proof.Machine
end

