-- ==== Sys2Proof/Machine/Operands.lean ====
section
/-! DEFINITION. The operand forms (30_encoding R82 to R88, 43_load_store R190): sign and zero extension, the
extended immediates, the shift amounts and the effective address. -/

namespace Sys2Proof.Machine

/-! ## `sext_N` and `zext_N` of a 32-bit value (00_scope R12) -/

def sext8 (v : Word) : Word := (v.setWidth 8).signExtend 32
def sext16 (v : Word) : Word := (v.setWidth 16).signExtend 32
def zext8 (v : Word) : Word := (v.setWidth 8).setWidth 32
def zext16 (v : Word) : Word := (v.setWidth 16).setWidth 32

/-! ## Extended immediates -/

/-- `imm_i` (R82) and `imm_s` (R83): `sext_12`. -/
def sextImm12 (imm : BitVec 12) : Word := imm.signExtend 32

/-- `imm_b` (R84): `sext_13`. -/
def sextImm13 (imm : BitVec 13) : Word := imm.signExtend 32

/-- `imm_j` (R85): `sext_21`. -/
def sextImm21 (imm : BitVec 21) : Word := imm.signExtend 32

/-- `imm_u` (R86): the 20 bits followed by twelve zeros. -/
def shiftImm20 (imm : BitVec 20) : Word := (imm ++ 0#12).cast (by rfl)

/-- `zimm` (R87): `zext_5`. -/
def zextImm5 (zimm : BitVec 5) : Word := zimm.setWidth 32

/-! ## Shift amounts and addresses -/

/-- The low five bits of a register value (41_alu R150 to R152). -/
def shiftAmount (v : Word) : Nat := (v.extractLsb' 0 5).toNat

/-- Base register plus sign-extended 12-bit offset, modulo 2^32: the one addressing mode (43_load_store R190). -/
def effectiveAddress (s : State) (rs1 : Reg) (imm : BitVec 12) : Word := s.getX rs1 + sextImm12 imm

/-- The target of JALR: bit 0 of the sum cleared (44_jump R211). -/
def jalrTarget (s : State) (rs1 : Reg) (imm : BitVec 12) : Word :=
  (s.getX rs1 + sextImm12 imm) &&& 0xFFFFFFFE#32

end Sys2Proof.Machine
end

