-- ==== Sys2Proof/Machine/Alu.lean ====
section
/-! DEFINITION. The integer ALU instructions (41_alu R140 to R160). Every one writes `x[rd]` and goes on at
`pc + 4`; it has no error of its own. -/

namespace Sys2Proof.Machine

/-! ## Register-register (R141 to R145) -/

/-- R141. -/
def execAdd (rd rs1 rs2 : Reg) (s : State) : Outcome := retireReg rd (s.getX rs1 + s.getX rs2) s
/-- R142. -/
def execSub (rd rs1 rs2 : Reg) (s : State) : Outcome := retireReg rd (s.getX rs1 - s.getX rs2) s
/-- R143. -/
def execAnd (rd rs1 rs2 : Reg) (s : State) : Outcome := retireReg rd (s.getX rs1 &&& s.getX rs2) s
/-- R144. -/
def execOr (rd rs1 rs2 : Reg) (s : State) : Outcome := retireReg rd (s.getX rs1 ||| s.getX rs2) s
/-- R145. -/
def execXor (rd rs1 rs2 : Reg) (s : State) : Outcome := retireReg rd (s.getX rs1 ^^^ s.getX rs2) s

/-! ## Register-immediate (R146 to R149) -/

/-- R146. -/
def execAddi (rd rs1 : Reg) (imm : BitVec 12) (s : State) : Outcome := retireReg rd (s.getX rs1 + sextImm12 imm) s
/-- R147. -/
def execAndi (rd rs1 : Reg) (imm : BitVec 12) (s : State) : Outcome := retireReg rd (s.getX rs1 &&& sextImm12 imm) s
/-- R148. -/
def execOri (rd rs1 : Reg) (imm : BitVec 12) (s : State) : Outcome := retireReg rd (s.getX rs1 ||| sextImm12 imm) s
/-- R149. -/
def execXori (rd rs1 : Reg) (imm : BitVec 12) (s : State) : Outcome := retireReg rd (s.getX rs1 ^^^ sextImm12 imm) s

/-! ## Shifts (R150 to R155) -/

/-- R150. -/
def execSll (rd rs1 rs2 : Reg) (s : State) : Outcome := retireReg rd (s.getX rs1 <<< shiftAmount (s.getX rs2)) s
/-- R151. -/
def execSrl (rd rs1 rs2 : Reg) (s : State) : Outcome := retireReg rd (s.getX rs1 >>> shiftAmount (s.getX rs2)) s
/-- R152. -/
def execSra (rd rs1 rs2 : Reg) (s : State) : Outcome :=
  retireReg rd ((s.getX rs1).sshiftRight (shiftAmount (s.getX rs2))) s
/-- R153. -/
def execSlli (rd rs1 : Reg) (shamt : BitVec 5) (s : State) : Outcome := retireReg rd (s.getX rs1 <<< shamt.toNat) s
/-- R154. -/
def execSrli (rd rs1 : Reg) (shamt : BitVec 5) (s : State) : Outcome := retireReg rd (s.getX rs1 >>> shamt.toNat) s
/-- R155. -/
def execSrai (rd rs1 : Reg) (shamt : BitVec 5) (s : State) : Outcome :=
  retireReg rd ((s.getX rs1).sshiftRight shamt.toNat) s

/-! ## Comparisons (R156 to R159) -/

/-- R156. -/
def execSlt (rd rs1 rs2 : Reg) (s : State) : Outcome := retireReg rd (boolWord (ltSigned (s.getX rs1) (s.getX rs2))) s
/-- R157. -/
def execSltu (rd rs1 rs2 : Reg) (s : State) : Outcome :=
  retireReg rd (boolWord (ltUnsigned (s.getX rs1) (s.getX rs2))) s
/-- R158. -/
def execSlti (rd rs1 : Reg) (imm : BitVec 12) (s : State) : Outcome :=
  retireReg rd (boolWord (ltSigned (s.getX rs1) (sextImm12 imm))) s
/-- R159: the immediate is sign-extended first and then compared as unsigned (decision D22, log entry 16). -/
def execSltiu (rd rs1 : Reg) (imm : BitVec 12) (s : State) : Outcome :=
  retireReg rd (boolWord (ltUnsigned (s.getX rs1) (sextImm12 imm))) s

end Sys2Proof.Machine
end

