-- ==== Sys2Proof/Machine/Branch.lean ====
section
/-! DEFINITION. The conditional branches (42_branch R170 to R177). The target is not checked (R177). -/

namespace Sys2Proof.Machine

/-- R171. -/
def execBeq (rs1 rs2 : Reg) (imm : BitVec 13) (s : State) : Outcome :=
  branchOp (s.getX rs1 == s.getX rs2) (sextImm13 imm) s
/-- R172. -/
def execBne (rs1 rs2 : Reg) (imm : BitVec 13) (s : State) : Outcome :=
  branchOp (s.getX rs1 != s.getX rs2) (sextImm13 imm) s
/-- R173. -/
def execBlt (rs1 rs2 : Reg) (imm : BitVec 13) (s : State) : Outcome :=
  branchOp (ltSigned (s.getX rs1) (s.getX rs2)) (sextImm13 imm) s
/-- R174. -/
def execBge (rs1 rs2 : Reg) (imm : BitVec 13) (s : State) : Outcome :=
  branchOp (!ltSigned (s.getX rs1) (s.getX rs2)) (sextImm13 imm) s
/-- R175. -/
def execBltu (rs1 rs2 : Reg) (imm : BitVec 13) (s : State) : Outcome :=
  branchOp (ltUnsigned (s.getX rs1) (s.getX rs2)) (sextImm13 imm) s
/-- R176. -/
def execBgeu (rs1 rs2 : Reg) (imm : BitVec 13) (s : State) : Outcome :=
  branchOp (!ltUnsigned (s.getX rs1) (s.getX rs2)) (sextImm13 imm) s

end Sys2Proof.Machine
end

