-- ==== Sys2Proof/Machine/Csr.lean ====
section
/-! DEFINITION. The CSR access instructions (46_csr R230 to R237). -/

namespace Sys2Proof.Machine

/-- R231. -/
def execCsrrw (rd rs1 : Reg) (csr : CsrIdx) (s : State) : Outcome := csrOp rd csr (fun _ => s.getX rs1) s
/-- R232. -/
def execCsrrs (rd rs1 : Reg) (csr : CsrIdx) (s : State) : Outcome := csrOp rd csr (fun old => old ||| s.getX rs1) s
/-- R233. -/
def execCsrrc (rd rs1 : Reg) (csr : CsrIdx) (s : State) : Outcome := csrOp rd csr (fun old => old &&& ~~~s.getX rs1) s
/-- R234. -/
def execCsrrwi (rd : Reg) (zimm : BitVec 5) (csr : CsrIdx) (s : State) : Outcome :=
  csrOp rd csr (fun _ => zextImm5 zimm) s
/-- R235. -/
def execCsrrsi (rd : Reg) (zimm : BitVec 5) (csr : CsrIdx) (s : State) : Outcome :=
  csrOp rd csr (fun old => old ||| zextImm5 zimm) s
/-- R236. -/
def execCsrrci (rd : Reg) (zimm : BitVec 5) (csr : CsrIdx) (s : State) : Outcome :=
  csrOp rd csr (fun old => old &&& ~~~zextImm5 zimm) s

end Sys2Proof.Machine
end

