-- ==== Sys2Proof/Machine/Jump.lean ====
section
/-! DEFINITION. JAL and JALR (44_jump R210 to R212). -/

namespace Sys2Proof.Machine

/-- R210. -/
def execJal (rd : Reg) (imm : BitVec 21) (s : State) : Outcome := jumpOp rd (s.pc + sextImm21 imm) s
/-- R211: the target uses the `rs1` value from before the link is written. -/
def execJalr (rd rs1 : Reg) (imm : BitVec 12) (s : State) : Outcome := jumpOp rd (jalrTarget s rs1 imm) s

end Sys2Proof.Machine
end

