-- ==== Sys2Proof/Machine/LoadStore.lean ====
section
/-! DEFINITION. The loads and stores (43_load_store R190 to R201). -/

namespace Sys2Proof.Machine

/-! ## Loads (R193 to R197) -/

/-- R193. -/
def execLb (rd rs1 : Reg) (imm : BitVec 12) (s : State) : Outcome :=
  loadOp config .byte sext8 rd (effectiveAddress s rs1 imm) s
/-- R194. -/
def execLh (rd rs1 : Reg) (imm : BitVec 12) (s : State) : Outcome :=
  loadOp config .half sext16 rd (effectiveAddress s rs1 imm) s
/-- R195. -/
def execLw (rd rs1 : Reg) (imm : BitVec 12) (s : State) : Outcome :=
  loadOp config .word id rd (effectiveAddress s rs1 imm) s
/-- R196. -/
def execLbu (rd rs1 : Reg) (imm : BitVec 12) (s : State) : Outcome :=
  loadOp config .byte zext8 rd (effectiveAddress s rs1 imm) s
/-- R197. -/
def execLhu (rd rs1 : Reg) (imm : BitVec 12) (s : State) : Outcome :=
  loadOp config .half zext16 rd (effectiveAddress s rs1 imm) s

/-! ## Stores (R198 to R200) -/

/-- R198. -/
def execSb (rs1 rs2 : Reg) (imm : BitVec 12) (s : State) : Outcome :=
  storeOp config .byte (effectiveAddress s rs1 imm) (s.getX rs2) s
/-- R199. -/
def execSh (rs1 rs2 : Reg) (imm : BitVec 12) (s : State) : Outcome :=
  storeOp config .half (effectiveAddress s rs1 imm) (s.getX rs2) s
/-- R200. -/
def execSw (rs1 rs2 : Reg) (imm : BitVec 12) (s : State) : Outcome :=
  storeOp config .word (effectiveAddress s rs1 imm) (s.getX rs2) s

end Sys2Proof.Machine
end

