-- ==== Sys2Proof/Machine/System.lean ====
section
/-! DEFINITION. ECALL, MRET and FENCE (47_system R250 to R252). -/

namespace Sys2Proof.Machine

/-- R250. -/
def execEcall (s : State) : Outcome := takeTrap config s
/-- R251. -/
def execMret (s : State) : Outcome := trapReturn s
/-- R252: no field of the word is read. -/
def execFence (_fm _pred _succ : BitVec 4) (_rs1 _rd : Reg) (s : State) : Outcome := retire s

end Sys2Proof.Machine
end

