-- ==== Sys2Proof/Machine/Upper.lean ====
section
/-! DEFINITION. LUI and AUIPC (45_upper_imm R220, R221). -/

namespace Sys2Proof.Machine

/-- R220. -/
def execLui (rd : Reg) (imm : BitVec 20) (s : State) : Outcome := retireReg rd (shiftImm20 imm) s
/-- R221: relative to the address of the AUIPC itself. -/
def execAuipc (rd : Reg) (imm : BitVec 20) (s : State) : Outcome := retireReg rd (s.pc + shiftImm20 imm) s

end Sys2Proof.Machine
end

