-- ==== Sys2Proof/Syntax.lean ====
section
/-! DEFINITION. The instructions: one constructor per row of spec/opcode_table.json, in the table's order, with the
operand fields of its format (30_encoding R81 to R90). Immediates are held raw: `imm_b` as the 13 bits and
`imm_j` as the 21 bits of R84 and R85, whose bit 0 is always 0 (`Instr.wf`). -/

namespace Sys2Proof

/-- The 46 instructions of 00_scope R2. -/
inductive Instr where
  | lui (rd : Reg) (imm : BitVec 20)  -- R220
  | auipc (rd : Reg) (imm : BitVec 20)  -- R221
  | jal (rd : Reg) (imm : BitVec 21)  -- R210
  | jalr (rd rs1 : Reg) (imm : BitVec 12)  -- R211
  | beq (rs1 rs2 : Reg) (imm : BitVec 13)  -- R171
  | bne (rs1 rs2 : Reg) (imm : BitVec 13)  -- R172
  | blt (rs1 rs2 : Reg) (imm : BitVec 13)  -- R173
  | bge (rs1 rs2 : Reg) (imm : BitVec 13)  -- R174
  | bltu (rs1 rs2 : Reg) (imm : BitVec 13)  -- R175
  | bgeu (rs1 rs2 : Reg) (imm : BitVec 13)  -- R176
  | lb (rd rs1 : Reg) (imm : BitVec 12)  -- R193
  | lh (rd rs1 : Reg) (imm : BitVec 12)  -- R194
  | lw (rd rs1 : Reg) (imm : BitVec 12)  -- R195
  | lbu (rd rs1 : Reg) (imm : BitVec 12)  -- R196
  | lhu (rd rs1 : Reg) (imm : BitVec 12)  -- R197
  | sb (rs1 rs2 : Reg) (imm : BitVec 12)  -- R198
  | sh (rs1 rs2 : Reg) (imm : BitVec 12)  -- R199
  | sw (rs1 rs2 : Reg) (imm : BitVec 12)  -- R200
  | addi (rd rs1 : Reg) (imm : BitVec 12)  -- R146
  | slti (rd rs1 : Reg) (imm : BitVec 12)  -- R158
  | sltiu (rd rs1 : Reg) (imm : BitVec 12)  -- R159
  | xori (rd rs1 : Reg) (imm : BitVec 12)  -- R149
  | ori (rd rs1 : Reg) (imm : BitVec 12)  -- R148
  | andi (rd rs1 : Reg) (imm : BitVec 12)  -- R147
  | slli (rd rs1 : Reg) (shamt : BitVec 5)  -- R153
  | srli (rd rs1 : Reg) (shamt : BitVec 5)  -- R154
  | srai (rd rs1 : Reg) (shamt : BitVec 5)  -- R155
  | add (rd rs1 rs2 : Reg)  -- R141
  | sub (rd rs1 rs2 : Reg)  -- R142
  | sll (rd rs1 rs2 : Reg)  -- R150
  | slt (rd rs1 rs2 : Reg)  -- R156
  | sltu (rd rs1 rs2 : Reg)  -- R157
  | xor (rd rs1 rs2 : Reg)  -- R145
  | srl (rd rs1 rs2 : Reg)  -- R151
  | sra (rd rs1 rs2 : Reg)  -- R152
  | or (rd rs1 rs2 : Reg)  -- R144
  | and (rd rs1 rs2 : Reg)  -- R143
  | fence (fm pred succ : BitVec 4) (rs1 rd : Reg)  -- R252; the fields are kept and never read
  | csrrw (rd rs1 : Reg) (csr : CsrIdx)  -- R231
  | csrrs (rd rs1 : Reg) (csr : CsrIdx)  -- R232
  | csrrc (rd rs1 : Reg) (csr : CsrIdx)  -- R233
  | csrrwi (rd : Reg) (zimm : BitVec 5) (csr : CsrIdx)  -- R234
  | csrrsi (rd : Reg) (zimm : BitVec 5) (csr : CsrIdx)  -- R235
  | csrrci (rd : Reg) (zimm : BitVec 5) (csr : CsrIdx)  -- R236
  | ecall  -- R250
  | mret  -- R251
deriving DecidableEq, Repr

end Sys2Proof
end

