-- ==== Sys2Proof/Decode.lean ====
section
/-! DEFINITION. Fields and immediates (30_encoding R81 to R89), the decoder as a decision tree over the keys of
R91 to R95, the same classification as R96's table of masks, and the encoder. -/

namespace Sys2Proof

/-! ## Fields (R81, R87, R88, R90) -/

def fOpcode (w : Word) : BitVec 7 := w.extractLsb' 0 7
def fRd (w : Word) : Reg := w.extractLsb' 7 5
def fFunct3 (w : Word) : BitVec 3 := w.extractLsb' 12 3
/-- Bits 19:15: `rs1`, and `zimm` of the immediate CSR forms (R87). -/
def fRs1 (w : Word) : BitVec 5 := w.extractLsb' 15 5
/-- Bits 24:20: `rs2`, and `shamt` of the I-shift format. -/
def fRs2 (w : Word) : BitVec 5 := w.extractLsb' 20 5
def fFunct7 (w : Word) : BitVec 7 := w.extractLsb' 25 7
/-- Bits 31:20 as a CSR index (R88). -/
def fCsr (w : Word) : CsrIdx := w.extractLsb' 20 12
def fFm (w : Word) : BitVec 4 := w.extractLsb' 28 4
def fPred (w : Word) : BitVec 4 := w.extractLsb' 24 4
def fSucc (w : Word) : BitVec 4 := w.extractLsb' 20 4

/-! ## Raw immediates (R82 to R86) -/

/-- R82. -/
def immIRaw (w : Word) : BitVec 12 := w.extractLsb' 20 12
/-- R83. -/
def immSRaw (w : Word) : BitVec 12 := (w.extractLsb' 25 7 ++ w.extractLsb' 7 5).cast (by rfl)
/-- R84. -/
def immBRaw (w : Word) : BitVec 13 :=
  (w.extractLsb' 31 1 ++ w.extractLsb' 7 1 ++ w.extractLsb' 25 6 ++ w.extractLsb' 8 4 ++ 0#1).cast (by rfl)
/-- R85. -/
def immJRaw (w : Word) : BitVec 21 :=
  (w.extractLsb' 31 1 ++ w.extractLsb' 12 8 ++ w.extractLsb' 20 1 ++ w.extractLsb' 21 10 ++ 0#1).cast (by rfl)
/-- R86. -/
def immURaw (w : Word) : BitVec 20 := w.extractLsb' 12 20

/-! ## The decoder: the second-level keys of R92, one function per major opcode of R91 -/

/-- JALR (R92). -/
def decodeJalr (w : Word) : Option Instr :=
  match fFunct3 w with
  | 0#3 => some (.jalr (fRd w) (fRs1 w) (immIRaw w))
  | _ => none

/-- BRANCH (R92). -/
def decodeBranch (w : Word) : Option Instr :=
  match fFunct3 w with
  | 0#3 => some (.beq (fRs1 w) (fRs2 w) (immBRaw w))
  | 1#3 => some (.bne (fRs1 w) (fRs2 w) (immBRaw w))
  | 4#3 => some (.blt (fRs1 w) (fRs2 w) (immBRaw w))
  | 5#3 => some (.bge (fRs1 w) (fRs2 w) (immBRaw w))
  | 6#3 => some (.bltu (fRs1 w) (fRs2 w) (immBRaw w))
  | 7#3 => some (.bgeu (fRs1 w) (fRs2 w) (immBRaw w))
  | _ => none

/-- LOAD (R92). -/
def decodeLoad (w : Word) : Option Instr :=
  match fFunct3 w with
  | 0#3 => some (.lb (fRd w) (fRs1 w) (immIRaw w))
  | 1#3 => some (.lh (fRd w) (fRs1 w) (immIRaw w))
  | 2#3 => some (.lw (fRd w) (fRs1 w) (immIRaw w))
  | 4#3 => some (.lbu (fRd w) (fRs1 w) (immIRaw w))
  | 5#3 => some (.lhu (fRd w) (fRs1 w) (immIRaw w))
  | _ => none

/-- STORE (R92). -/
def decodeStore (w : Word) : Option Instr :=
  match fFunct3 w with
  | 0#3 => some (.sb (fRs1 w) (fRs2 w) (immSRaw w))
  | 1#3 => some (.sh (fRs1 w) (fRs2 w) (immSRaw w))
  | 2#3 => some (.sw (fRs1 w) (fRs2 w) (immSRaw w))
  | _ => none

/-- OP-IMM (R92); the shifts compare the whole `funct7` (R93). -/
def decodeOpImm (w : Word) : Option Instr :=
  match fFunct3 w with
  | 0#3 => some (.addi (fRd w) (fRs1 w) (immIRaw w))
  | 1#3 =>
    match fFunct7 w with
    | 0x0#7 => some (.slli (fRd w) (fRs1 w) (fRs2 w))
    | _ => none
  | 2#3 => some (.slti (fRd w) (fRs1 w) (immIRaw w))
  | 3#3 => some (.sltiu (fRd w) (fRs1 w) (immIRaw w))
  | 4#3 => some (.xori (fRd w) (fRs1 w) (immIRaw w))
  | 5#3 =>
    match fFunct7 w with
    | 0x0#7 => some (.srli (fRd w) (fRs1 w) (fRs2 w))
    | 0x20#7 => some (.srai (fRd w) (fRs1 w) (fRs2 w))
    | _ => none
  | 6#3 => some (.ori (fRd w) (fRs1 w) (immIRaw w))
  | 7#3 => some (.andi (fRd w) (fRs1 w) (immIRaw w))

/-- OP (R92); the whole `funct7` is compared (R93). -/
def decodeOp (w : Word) : Option Instr :=
  match fFunct3 w with
  | 0#3 =>
    match fFunct7 w with
    | 0x0#7 => some (.add (fRd w) (fRs1 w) (fRs2 w))
    | 0x20#7 => some (.sub (fRd w) (fRs1 w) (fRs2 w))
    | _ => none
  | 1#3 =>
    match fFunct7 w with
    | 0x0#7 => some (.sll (fRd w) (fRs1 w) (fRs2 w))
    | _ => none
  | 2#3 =>
    match fFunct7 w with
    | 0x0#7 => some (.slt (fRd w) (fRs1 w) (fRs2 w))
    | _ => none
  | 3#3 =>
    match fFunct7 w with
    | 0x0#7 => some (.sltu (fRd w) (fRs1 w) (fRs2 w))
    | _ => none
  | 4#3 =>
    match fFunct7 w with
    | 0x0#7 => some (.xor (fRd w) (fRs1 w) (fRs2 w))
    | _ => none
  | 5#3 =>
    match fFunct7 w with
    | 0x0#7 => some (.srl (fRd w) (fRs1 w) (fRs2 w))
    | 0x20#7 => some (.sra (fRd w) (fRs1 w) (fRs2 w))
    | _ => none
  | 6#3 =>
    match fFunct7 w with
    | 0x0#7 => some (.or (fRd w) (fRs1 w) (fRs2 w))
    | _ => none
  | 7#3 =>
    match fFunct7 w with
    | 0x0#7 => some (.and (fRd w) (fRs1 w) (fRs2 w))
    | _ => none

/-- MISC-MEM (R95): FENCE on `funct3` alone. -/
def decodeMiscMem (w : Word) : Option Instr :=
  match fFunct3 w with
  | 0#3 => some (.fence (fFm w) (fPred w) (fSucc w) (fRs1 w) (fRd w))
  | _ => none

/-- SYSTEM with `funct3 = 000` matches exactly two words (R94). -/
def decodeSystemFixed (w : Word) : Option Instr :=
  if w = 0x00000073#32 then some .ecall else if w = 0x30200073#32 then some .mret else none

/-- SYSTEM (R92, R94). -/
def decodeSystem (w : Word) : Option Instr :=
  match fFunct3 w with
  | 0#3 => decodeSystemFixed w
  | 1#3 => some (.csrrw (fRd w) (fRs1 w) (fCsr w))
  | 2#3 => some (.csrrs (fRd w) (fRs1 w) (fCsr w))
  | 3#3 => some (.csrrc (fRd w) (fRs1 w) (fCsr w))
  | 5#3 => some (.csrrwi (fRd w) (fRs1 w) (fCsr w))
  | 6#3 => some (.csrrsi (fRd w) (fRs1 w) (fCsr w))
  | 7#3 => some (.csrrci (fRd w) (fRs1 w) (fCsr w))
  | _ => none

/-- The instruction a word is, or none where it is unmatched (R91: every other opcode is unmatched). -/
def matchInstr (w : Word) : Option Instr :=
  match fOpcode w with
  | 0x37#7 => some (.lui (fRd w) (immURaw w))
  | 0x17#7 => some (.auipc (fRd w) (immURaw w))
  | 0x6F#7 => some (.jal (fRd w) (immJRaw w))
  | 0x67#7 => decodeJalr w
  | 0x63#7 => decodeBranch w
  | 0x03#7 => decodeLoad w
  | 0x23#7 => decodeStore w
  | 0x13#7 => decodeOpImm w
  | 0x33#7 => decodeOp w
  | 0x0F#7 => decodeMiscMem w
  | 0x73#7 => decodeSystem w
  | _ => none

/-- Why a byte sequence is no instruction: R96's one decode failure, or fewer than four bytes (no fetch
delivers those, R80). -/
inductive DecodeError where
  | unmatchedOpcode
  | tooShort
deriving DecidableEq, Repr

/-- Decode of a fetched word (R96, R97, 40_pipeline R114): total, one named failure. -/
def decodeWord (w : Word) : Except DecodeError Instr :=
  match matchInstr w with
  | some i => .ok i
  | none => .error .unmatchedOpcode

/-- Decode of bytes as they stand in Memory, lowest address first: four bytes make the word (R80), in the
byte order of fetch (20_memory R57); the rest of the list is handed back. -/
def decodeBytes (bo : ByteOrder) : List Byte → Except DecodeError (Instr × List Byte)
  | b0 :: b1 :: b2 :: b3 :: rest =>
    match decodeWord (Machine.valueOf bo [b0, b1, b2, b3]) with
    | .ok i => .ok (i, rest)
    | .error e => .error e
  | _ => .error .tooShort

/-- The host's view of the decoder: the low `nbits` bits of `w`, laid out as the hardware stores a word and
given to `decodeBytes`. -/
def decodeTableWord (nbits w : Nat) : Option Instr :=
  let bo := Machine.config.byteOrder
  match decodeBytes bo (Machine.bytesOf bo .word (BitVec.ofNat 32 (w % 2 ^ nbits))) with
  | .ok (i, _) => some i
  | .error _ => none

/-! ## The opcode table (R96): rows of a mask and a pattern, and the classification by them -/

/-- The classification of R37 and R114: one of the 46 mnemonics. -/
inductive Mnemonic where
  | lui | auipc | jal | jalr | beq | bne | blt | bge | bltu | bgeu | lb | lh | lw | lbu | lhu | sb | sh | sw
  | addi | slti | sltiu | xori | ori | andi | slli | srli | srai | add | sub | sll | slt | sltu | xor | srl
  | sra | or | and | fence | csrrw | csrrs | csrrc | csrrwi | csrrsi | csrrci | ecall | mret
deriving DecidableEq, Repr

/-- One row of spec/opcode_table.json: a word `w` matches it when `w &&& mask = pattern` (R96). -/
structure OpcodeRow where
  op : Mnemonic
  mask : Word
  pattern : Word
deriving DecidableEq, Repr

/-- LUI, AUIPC, the jumps and the branches. -/
def jumpRows : List OpcodeRow := [
  ⟨.lui, 0x0000007F#32, 0x00000037#32⟩,
  ⟨.auipc, 0x0000007F#32, 0x00000017#32⟩,
  ⟨.jal, 0x0000007F#32, 0x0000006F#32⟩,
  ⟨.jalr, 0x0000707F#32, 0x00000067#32⟩,
  ⟨.beq, 0x0000707F#32, 0x00000063#32⟩,
  ⟨.bne, 0x0000707F#32, 0x00001063#32⟩,
  ⟨.blt, 0x0000707F#32, 0x00004063#32⟩,
  ⟨.bge, 0x0000707F#32, 0x00005063#32⟩,
  ⟨.bltu, 0x0000707F#32, 0x00006063#32⟩,
  ⟨.bgeu, 0x0000707F#32, 0x00007063#32⟩]

/-- The loads and stores. -/
def memoryRows : List OpcodeRow := [
  ⟨.lb, 0x0000707F#32, 0x00000003#32⟩,
  ⟨.lh, 0x0000707F#32, 0x00001003#32⟩,
  ⟨.lw, 0x0000707F#32, 0x00002003#32⟩,
  ⟨.lbu, 0x0000707F#32, 0x00004003#32⟩,
  ⟨.lhu, 0x0000707F#32, 0x00005003#32⟩,
  ⟨.sb, 0x0000707F#32, 0x00000023#32⟩,
  ⟨.sh, 0x0000707F#32, 0x00001023#32⟩,
  ⟨.sw, 0x0000707F#32, 0x00002023#32⟩]

/-- The register-immediate instructions. -/
def immediateRows : List OpcodeRow := [
  ⟨.addi, 0x0000707F#32, 0x00000013#32⟩,
  ⟨.slti, 0x0000707F#32, 0x00002013#32⟩,
  ⟨.sltiu, 0x0000707F#32, 0x00003013#32⟩,
  ⟨.xori, 0x0000707F#32, 0x00004013#32⟩,
  ⟨.ori, 0x0000707F#32, 0x00006013#32⟩,
  ⟨.andi, 0x0000707F#32, 0x00007013#32⟩,
  ⟨.slli, 0xFE00707F#32, 0x00001013#32⟩,
  ⟨.srli, 0xFE00707F#32, 0x00005013#32⟩,
  ⟨.srai, 0xFE00707F#32, 0x40005013#32⟩]

/-- The register-register instructions. -/
def registerRows : List OpcodeRow := [
  ⟨.add, 0xFE00707F#32, 0x00000033#32⟩,
  ⟨.sub, 0xFE00707F#32, 0x40000033#32⟩,
  ⟨.sll, 0xFE00707F#32, 0x00001033#32⟩,
  ⟨.slt, 0xFE00707F#32, 0x00002033#32⟩,
  ⟨.sltu, 0xFE00707F#32, 0x00003033#32⟩,
  ⟨.xor, 0xFE00707F#32, 0x00004033#32⟩,
  ⟨.srl, 0xFE00707F#32, 0x00005033#32⟩,
  ⟨.sra, 0xFE00707F#32, 0x40005033#32⟩,
  ⟨.or, 0xFE00707F#32, 0x00006033#32⟩,
  ⟨.and, 0xFE00707F#32, 0x00007033#32⟩]

/-- FENCE, the CSR instructions, ECALL and MRET. -/
def systemRows : List OpcodeRow := [
  ⟨.fence, 0x0000707F#32, 0x0000000F#32⟩,
  ⟨.csrrw, 0x0000707F#32, 0x00001073#32⟩,
  ⟨.csrrs, 0x0000707F#32, 0x00002073#32⟩,
  ⟨.csrrc, 0x0000707F#32, 0x00003073#32⟩,
  ⟨.csrrwi, 0x0000707F#32, 0x00005073#32⟩,
  ⟨.csrrsi, 0x0000707F#32, 0x00006073#32⟩,
  ⟨.csrrci, 0x0000707F#32, 0x00007073#32⟩,
  ⟨.ecall, 0xFFFFFFFF#32, 0x00000073#32⟩,
  ⟨.mret, 0xFFFFFFFF#32, 0x30200073#32⟩]

/-- The rows in the order of spec/opcode_table.json. -/
def opcodeTable : List OpcodeRow := jumpRows ++ memoryRows ++ immediateRows ++ registerRows ++ systemRows

def OpcodeRow.matchesWord (r : OpcodeRow) (w : Word) : Bool := w &&& r.mask == r.pattern

/-- "First matching pattern wins, no match is an error" (R96). -/
def classify (w : Word) : Option Mnemonic := (opcodeTable.find? (·.matchesWord w)).map (·.op)

/-- The mnemonic of an instruction. -/
def Instr.mnemonic : Instr → Mnemonic
  | .lui _ _ => .lui
  | .auipc _ _ => .auipc
  | .jal _ _ => .jal
  | .jalr _ _ _ => .jalr
  | .beq _ _ _ => .beq
  | .bne _ _ _ => .bne
  | .blt _ _ _ => .blt
  | .bge _ _ _ => .bge
  | .bltu _ _ _ => .bltu
  | .bgeu _ _ _ => .bgeu
  | .lb _ _ _ => .lb
  | .lh _ _ _ => .lh
  | .lw _ _ _ => .lw
  | .lbu _ _ _ => .lbu
  | .lhu _ _ _ => .lhu
  | .sb _ _ _ => .sb
  | .sh _ _ _ => .sh
  | .sw _ _ _ => .sw
  | .addi _ _ _ => .addi
  | .slti _ _ _ => .slti
  | .sltiu _ _ _ => .sltiu
  | .xori _ _ _ => .xori
  | .ori _ _ _ => .ori
  | .andi _ _ _ => .andi
  | .slli _ _ _ => .slli
  | .srli _ _ _ => .srli
  | .srai _ _ _ => .srai
  | .add _ _ _ => .add
  | .sub _ _ _ => .sub
  | .sll _ _ _ => .sll
  | .slt _ _ _ => .slt
  | .sltu _ _ _ => .sltu
  | .xor _ _ _ => .xor
  | .srl _ _ _ => .srl
  | .sra _ _ _ => .sra
  | .or _ _ _ => .or
  | .and _ _ _ => .and
  | .fence _ _ _ _ _ => .fence
  | .csrrw _ _ _ => .csrrw
  | .csrrs _ _ _ => .csrrs
  | .csrrc _ _ _ => .csrrc
  | .csrrwi _ _ _ => .csrrwi
  | .csrrsi _ _ _ => .csrrsi
  | .csrrci _ _ _ => .csrrci
  | .ecall => .ecall
  | .mret => .mret

/-! ## The encoder, format by format (R90) -/

def encR (f7 : BitVec 7) (rs2 rs1 : BitVec 5) (f3 : BitVec 3) (rd : Reg) (op : BitVec 7) : Word :=
  (f7 ++ rs2 ++ rs1 ++ f3 ++ rd ++ op).cast (by rfl)

def encI (imm : BitVec 12) (rs1 : BitVec 5) (f3 : BitVec 3) (rd : Reg) (op : BitVec 7) : Word :=
  (imm ++ rs1 ++ f3 ++ rd ++ op).cast (by rfl)

def encS (imm : BitVec 12) (rs2 rs1 : Reg) (f3 : BitVec 3) (op : BitVec 7) : Word :=
  (imm.extractLsb' 5 7 ++ rs2 ++ rs1 ++ f3 ++ imm.extractLsb' 0 5 ++ op).cast (by rfl)

def encB (imm : BitVec 13) (rs2 rs1 : Reg) (f3 : BitVec 3) (op : BitVec 7) : Word :=
  (imm.extractLsb' 12 1 ++ imm.extractLsb' 5 6 ++ rs2 ++ rs1 ++ f3 ++ imm.extractLsb' 1 4 ++ imm.extractLsb' 11 1 ++ op).cast (by rfl)

def encU (imm : BitVec 20) (rd : Reg) (op : BitVec 7) : Word :=
  (imm ++ rd ++ op).cast (by rfl)

def encJ (imm : BitVec 21) (rd : Reg) (op : BitVec 7) : Word :=
  (imm.extractLsb' 20 1 ++ imm.extractLsb' 1 10 ++ imm.extractLsb' 11 1 ++ imm.extractLsb' 12 8 ++ rd ++ op).cast (by rfl)

def encFence (fm pred succ : BitVec 4) (rs1 : Reg) (f3 : BitVec 3) (rd : Reg) (op : BitVec 7) : Word :=
  (fm ++ pred ++ succ ++ rs1 ++ f3 ++ rd ++ op).cast (by rfl)

/-- The word of an instruction, from the keys of R91 to R94. For a well-formed instruction no bit is dropped. -/
def encode : Instr → Word
  | .lui rd imm => encU imm rd 0x37#7
  | .auipc rd imm => encU imm rd 0x17#7
  | .jal rd imm => encJ imm rd 0x6f#7
  | .jalr rd rs1 imm => encI imm rs1 0#3 rd 0x67#7
  | .beq rs1 rs2 imm => encB imm rs2 rs1 0#3 0x63#7
  | .bne rs1 rs2 imm => encB imm rs2 rs1 1#3 0x63#7
  | .blt rs1 rs2 imm => encB imm rs2 rs1 4#3 0x63#7
  | .bge rs1 rs2 imm => encB imm rs2 rs1 5#3 0x63#7
  | .bltu rs1 rs2 imm => encB imm rs2 rs1 6#3 0x63#7
  | .bgeu rs1 rs2 imm => encB imm rs2 rs1 7#3 0x63#7
  | .lb rd rs1 imm => encI imm rs1 0#3 rd 0x3#7
  | .lh rd rs1 imm => encI imm rs1 1#3 rd 0x3#7
  | .lw rd rs1 imm => encI imm rs1 2#3 rd 0x3#7
  | .lbu rd rs1 imm => encI imm rs1 4#3 rd 0x3#7
  | .lhu rd rs1 imm => encI imm rs1 5#3 rd 0x3#7
  | .sb rs1 rs2 imm => encS imm rs2 rs1 0#3 0x23#7
  | .sh rs1 rs2 imm => encS imm rs2 rs1 1#3 0x23#7
  | .sw rs1 rs2 imm => encS imm rs2 rs1 2#3 0x23#7
  | .addi rd rs1 imm => encI imm rs1 0#3 rd 0x13#7
  | .slti rd rs1 imm => encI imm rs1 2#3 rd 0x13#7
  | .sltiu rd rs1 imm => encI imm rs1 3#3 rd 0x13#7
  | .xori rd rs1 imm => encI imm rs1 4#3 rd 0x13#7
  | .ori rd rs1 imm => encI imm rs1 6#3 rd 0x13#7
  | .andi rd rs1 imm => encI imm rs1 7#3 rd 0x13#7
  | .slli rd rs1 shamt => encR 0x0#7 shamt rs1 1#3 rd 0x13#7
  | .srli rd rs1 shamt => encR 0x0#7 shamt rs1 5#3 rd 0x13#7
  | .srai rd rs1 shamt => encR 0x20#7 shamt rs1 5#3 rd 0x13#7
  | .add rd rs1 rs2 => encR 0x0#7 rs2 rs1 0#3 rd 0x33#7
  | .sub rd rs1 rs2 => encR 0x20#7 rs2 rs1 0#3 rd 0x33#7
  | .sll rd rs1 rs2 => encR 0x0#7 rs2 rs1 1#3 rd 0x33#7
  | .slt rd rs1 rs2 => encR 0x0#7 rs2 rs1 2#3 rd 0x33#7
  | .sltu rd rs1 rs2 => encR 0x0#7 rs2 rs1 3#3 rd 0x33#7
  | .xor rd rs1 rs2 => encR 0x0#7 rs2 rs1 4#3 rd 0x33#7
  | .srl rd rs1 rs2 => encR 0x0#7 rs2 rs1 5#3 rd 0x33#7
  | .sra rd rs1 rs2 => encR 0x20#7 rs2 rs1 5#3 rd 0x33#7
  | .or rd rs1 rs2 => encR 0x0#7 rs2 rs1 6#3 rd 0x33#7
  | .and rd rs1 rs2 => encR 0x0#7 rs2 rs1 7#3 rd 0x33#7
  | .fence fm pred succ rs1 rd => encFence fm pred succ rs1 0#3 rd 0xf#7
  | .csrrw rd rs1 csr => encI csr rs1 1#3 rd 0x73#7
  | .csrrs rd rs1 csr => encI csr rs1 2#3 rd 0x73#7
  | .csrrc rd rs1 csr => encI csr rs1 3#3 rd 0x73#7
  | .csrrwi rd zimm csr => encI csr zimm 5#3 rd 0x73#7
  | .csrrsi rd zimm csr => encI csr zimm 6#3 rd 0x73#7
  | .csrrci rd zimm csr => encI csr zimm 7#3 rd 0x73#7
  | .ecall => 0x00000073#32
  | .mret => 0x30200073#32

end Sys2Proof
end

