-- ==== Sys2Proof/Machine/Fetch.lean ====
section
/-! DEFINITION. Fetch, and what a step does before it executes: the run state, the word at `pc`, its decoding
(40_pipeline R112 to R114). -/

namespace Sys2Proof.Machine

/-- Why a step ends before Execute: an error of the hardware or a refusal of the model. -/
abbrev Stop := Fault ⊕ Refusal

/-- What a fetch that stops makes of the step (40_pipeline R113, 60_exceptions R261, R265). -/
def fetchStop : AccessStop → Stop
  | .outOfBounds l => .inl (.fetchOutOfBounds l)
  | .misaligned => .inr .misalignedFetch

/-- Fetch (R113): the 32-bit word at `pc`. -/
def fetch (c : Config) (s : State) : Except AccessStop Word := memRead c s.mem s.pc .word

/-- The instruction the next step runs, or why there is none. The order of R266: the run state, a misaligned
fetch, the fetch's bounds, then the unmatched word. -/
def nextInstr (c : Config) (s : State) : Except Stop Instr :=
  match s.run with
  | .running =>
    match fetch c s with
    | .error e => .error (fetchStop e)
    | .ok w =>
      match decodeWord w with
      | .ok i => .ok i
      | .error _ => .error (.inl .unmatchedOpcode)
  | .halted => .error (.inr (.noStepDefined .halted))
  | .faulted => .error (.inr (.noStepDefined .faulted))

/-- The outcome of a step that stops before Execute. -/
def Stop.outcome : Stop → Outcome
  | .inl f => .fault f
  | .inr r => .refused r

/-- `s` with the word stored where the next step fetches: the four bytes at `pc`, in the byte order of fetch.
Nothing is stored where no fetch at `pc` succeeds. -/
def storeFetchWord (c : Config) (s : State) (w : Word) : State :=
  match memWrite c s.mem s.pc .word w with
  | .ok m => s.setMem m
  | .error _ => s

end Sys2Proof.Machine
end

