-- ==== Sys2Proof/Machine/Step.lean ====
section
/-! DEFINITION. One step of the core (40_pipeline R112). The meanings of the instructions make the program-counter
update; a fault or a refusal ends the run. -/

namespace Sys2Proof.Machine

/-- One `step()`. -/
def step (s : State) : Host.Outcome State Fault Refusal :=
  match nextInstr config s with
  | .ok i => exec i s
  | .error e => e.outcome

/-- `s` with the instruction whose low `nbits` bits are those of `w` (every bit above zero) stored at `pc`, which
stands for the host's load of a program there (log entry 22). -/
def State.withFetchWord (s : State) (nbits w : Nat) : State :=
  storeFetchWord config s (BitVec.ofNat 32 (w % 2 ^ nbits))

end Sys2Proof.Machine
end

