-- ==== Sys2Proof/WellFormed.lean ====
section
/-! DEFINITION. Which instruction terms an encoding can hold: every one but a branch or JAL whose raw offset has
bit 0 set, a bit no encoding carries (30_encoding R84, R85: bit 0 = 0). -/

namespace Sys2Proof

/-- Bit 0 of a raw `imm_b` is 0 (R84). -/
def branchOffsetOk (imm : BitVec 13) : Bool := !imm.getLsbD 0

/-- Bit 0 of a raw `imm_j` is 0 (R85). -/
def jumpOffsetOk (imm : BitVec 21) : Bool := !imm.getLsbD 0

/-- The instruction has an encoding. -/
def Instr.wf : Instr → Bool
  | .jal _ imm => jumpOffsetOk imm
  | .beq _ _ imm | .bne _ _ imm | .blt _ _ imm | .bge _ _ imm | .bltu _ _ imm | .bgeu _ _ imm =>
    branchOffsetOk imm
  | .lui _ _ | .auipc _ _ | .jalr _ _ _
  | .lb _ _ _ | .lh _ _ _ | .lw _ _ _ | .lbu _ _ _ | .lhu _ _ _ | .sb _ _ _ | .sh _ _ _ | .sw _ _ _
  | .addi _ _ _ | .slti _ _ _ | .sltiu _ _ _ | .xori _ _ _ | .ori _ _ _ | .andi _ _ _
  | .slli _ _ _ | .srli _ _ _ | .srai _ _ _
  | .add _ _ _ | .sub _ _ _ | .sll _ _ _ | .slt _ _ _ | .sltu _ _ _ | .xor _ _ _ | .srl _ _ _ | .sra _ _ _
  | .or _ _ _ | .and _ _ _
  | .fence _ _ _ _ _
  | .csrrw _ _ _ | .csrrs _ _ _ | .csrrc _ _ _ | .csrrwi _ _ _ | .csrrsi _ _ _ | .csrrci _ _ _
  | .ecall | .mret => true

end Sys2Proof
end

