-- ==== Sys2Proof/Laws/Decode.lean ====
section
/-! SUPPORT. The laws of the encoding: every field read back from every format, and a mask of the opcode table as
equality of the fields it covers. -/

namespace Sys2Proof

/-! ## Fields of an encoded word -/

section
variable (f7 : BitVec 7) (rs2 rs1 : BitVec 5) (f3 : BitVec 3) (rd : Reg) (op : BitVec 7)

@[simp] theorem fOpcode_encR : fOpcode (encR f7 rs2 rs1 f3 rd op) = op := by
  ext i hi
  simp only [fOpcode, encR, BitVec.getElem_extractLsb', BitVec.getLsbD_cast, BitVec.getLsbD_append]
  interval_cases i <;> rfl

@[simp] theorem fRd_encR : fRd (encR f7 rs2 rs1 f3 rd op) = rd := by
  ext i hi
  simp only [fRd, encR, BitVec.getElem_extractLsb', BitVec.getLsbD_cast, BitVec.getLsbD_append]
  interval_cases i <;> rfl

@[simp] theorem fFunct3_encR : fFunct3 (encR f7 rs2 rs1 f3 rd op) = f3 := by
  ext i hi
  simp only [fFunct3, encR, BitVec.getElem_extractLsb', BitVec.getLsbD_cast, BitVec.getLsbD_append]
  interval_cases i <;> rfl

@[simp] theorem fRs1_encR : fRs1 (encR f7 rs2 rs1 f3 rd op) = rs1 := by
  ext i hi
  simp only [fRs1, encR, BitVec.getElem_extractLsb', BitVec.getLsbD_cast, BitVec.getLsbD_append]
  interval_cases i <;> rfl

@[simp] theorem fRs2_encR : fRs2 (encR f7 rs2 rs1 f3 rd op) = rs2 := by
  ext i hi
  simp only [fRs2, encR, BitVec.getElem_extractLsb', BitVec.getLsbD_cast, BitVec.getLsbD_append]
  interval_cases i <;> rfl

@[simp] theorem fFunct7_encR : fFunct7 (encR f7 rs2 rs1 f3 rd op) = f7 := by
  ext i hi
  simp only [fFunct7, encR, BitVec.getElem_extractLsb', BitVec.getLsbD_cast, BitVec.getLsbD_append]
  interval_cases i <;> rfl

end

section
variable (imm : BitVec 12) (rs1 : BitVec 5) (f3 : BitVec 3) (rd : Reg) (op : BitVec 7)

@[simp] theorem fOpcode_encI : fOpcode (encI imm rs1 f3 rd op) = op := by
  ext i hi
  simp only [fOpcode, encI, BitVec.getElem_extractLsb', BitVec.getLsbD_cast, BitVec.getLsbD_append]
  interval_cases i <;> rfl

@[simp] theorem fRd_encI : fRd (encI imm rs1 f3 rd op) = rd := by
  ext i hi
  simp only [fRd, encI, BitVec.getElem_extractLsb', BitVec.getLsbD_cast, BitVec.getLsbD_append]
  interval_cases i <;> rfl

@[simp] theorem fFunct3_encI : fFunct3 (encI imm rs1 f3 rd op) = f3 := by
  ext i hi
  simp only [fFunct3, encI, BitVec.getElem_extractLsb', BitVec.getLsbD_cast, BitVec.getLsbD_append]
  interval_cases i <;> rfl

@[simp] theorem fRs1_encI : fRs1 (encI imm rs1 f3 rd op) = rs1 := by
  ext i hi
  simp only [fRs1, encI, BitVec.getElem_extractLsb', BitVec.getLsbD_cast, BitVec.getLsbD_append]
  interval_cases i <;> rfl

@[simp] theorem immIRaw_encI : immIRaw (encI imm rs1 f3 rd op) = imm := by
  ext i hi
  simp only [immIRaw, encI, BitVec.getElem_extractLsb', BitVec.getLsbD_cast, BitVec.getLsbD_append]
  interval_cases i <;> rfl

@[simp] theorem fCsr_encI : fCsr (encI imm rs1 f3 rd op) = imm := by
  ext i hi
  simp only [fCsr, encI, BitVec.getElem_extractLsb', BitVec.getLsbD_cast, BitVec.getLsbD_append]
  interval_cases i <;> rfl

end

section
variable (imm : BitVec 12) (rs2 rs1 : Reg) (f3 : BitVec 3) (op : BitVec 7)

@[simp] theorem fOpcode_encS : fOpcode (encS imm rs2 rs1 f3 op) = op := by
  ext i hi
  simp only [fOpcode, encS, BitVec.getElem_extractLsb', BitVec.getLsbD_cast, BitVec.getLsbD_append, BitVec.getLsbD_extractLsb']
  interval_cases i <;> rfl

@[simp] theorem fFunct3_encS : fFunct3 (encS imm rs2 rs1 f3 op) = f3 := by
  ext i hi
  simp only [fFunct3, encS, BitVec.getElem_extractLsb', BitVec.getLsbD_cast, BitVec.getLsbD_append, BitVec.getLsbD_extractLsb']
  interval_cases i <;> rfl

@[simp] theorem fRs1_encS : fRs1 (encS imm rs2 rs1 f3 op) = rs1 := by
  ext i hi
  simp only [fRs1, encS, BitVec.getElem_extractLsb', BitVec.getLsbD_cast, BitVec.getLsbD_append, BitVec.getLsbD_extractLsb']
  interval_cases i <;> rfl

@[simp] theorem fRs2_encS : fRs2 (encS imm rs2 rs1 f3 op) = rs2 := by
  ext i hi
  simp only [fRs2, encS, BitVec.getElem_extractLsb', BitVec.getLsbD_cast, BitVec.getLsbD_append, BitVec.getLsbD_extractLsb']
  interval_cases i <;> rfl

@[simp] theorem immSRaw_encS : immSRaw (encS imm rs2 rs1 f3 op) = imm := by
  ext i hi
  simp only [immSRaw, encS, BitVec.getElem_extractLsb', BitVec.getElem_cast, BitVec.getElem_append,
    BitVec.getLsbD_cast, BitVec.getLsbD_append, BitVec.getLsbD_extractLsb']
  interval_cases i <;> rfl

end

section
variable (imm : BitVec 13) (rs2 rs1 : Reg) (f3 : BitVec 3) (op : BitVec 7)

@[simp] theorem fOpcode_encB : fOpcode (encB imm rs2 rs1 f3 op) = op := by
  ext i hi
  simp only [fOpcode, encB, BitVec.getElem_extractLsb', BitVec.getLsbD_cast, BitVec.getLsbD_append, BitVec.getLsbD_extractLsb']
  interval_cases i <;> rfl

@[simp] theorem fFunct3_encB : fFunct3 (encB imm rs2 rs1 f3 op) = f3 := by
  ext i hi
  simp only [fFunct3, encB, BitVec.getElem_extractLsb', BitVec.getLsbD_cast, BitVec.getLsbD_append, BitVec.getLsbD_extractLsb']
  interval_cases i <;> rfl

@[simp] theorem fRs1_encB : fRs1 (encB imm rs2 rs1 f3 op) = rs1 := by
  ext i hi
  simp only [fRs1, encB, BitVec.getElem_extractLsb', BitVec.getLsbD_cast, BitVec.getLsbD_append, BitVec.getLsbD_extractLsb']
  interval_cases i <;> rfl

@[simp] theorem fRs2_encB : fRs2 (encB imm rs2 rs1 f3 op) = rs2 := by
  ext i hi
  simp only [fRs2, encB, BitVec.getElem_extractLsb', BitVec.getLsbD_cast, BitVec.getLsbD_append, BitVec.getLsbD_extractLsb']
  interval_cases i <;> rfl

theorem immBRaw_encB (h : branchOffsetOk imm = true) : immBRaw (encB imm rs2 rs1 f3 op) = imm := by
  have h0 : imm.getLsbD 0 = false := by simpa [branchOffsetOk] using h
  ext i hi
  simp only [immBRaw, encB, BitVec.getElem_extractLsb', BitVec.getElem_cast, BitVec.getElem_append,
    BitVec.getLsbD_cast, BitVec.getLsbD_append, BitVec.getLsbD_extractLsb']
  interval_cases i <;> first | rfl | exact h0.symm

end

section
variable (imm : BitVec 20) (rd : Reg) (op : BitVec 7)

@[simp] theorem fOpcode_encU : fOpcode (encU imm rd op) = op := by
  ext i hi
  simp only [fOpcode, encU, BitVec.getElem_extractLsb', BitVec.getLsbD_cast, BitVec.getLsbD_append]
  interval_cases i <;> rfl

@[simp] theorem fRd_encU : fRd (encU imm rd op) = rd := by
  ext i hi
  simp only [fRd, encU, BitVec.getElem_extractLsb', BitVec.getLsbD_cast, BitVec.getLsbD_append]
  interval_cases i <;> rfl

@[simp] theorem immURaw_encU : immURaw (encU imm rd op) = imm := by
  ext i hi
  simp only [immURaw, encU, BitVec.getElem_extractLsb', BitVec.getLsbD_cast, BitVec.getLsbD_append]
  interval_cases i <;> rfl

end

section
variable (imm : BitVec 21) (rd : Reg) (op : BitVec 7)

@[simp] theorem fOpcode_encJ : fOpcode (encJ imm rd op) = op := by
  ext i hi
  simp only [fOpcode, encJ, BitVec.getElem_extractLsb', BitVec.getLsbD_cast, BitVec.getLsbD_append, BitVec.getLsbD_extractLsb']
  interval_cases i <;> rfl

@[simp] theorem fRd_encJ : fRd (encJ imm rd op) = rd := by
  ext i hi
  simp only [fRd, encJ, BitVec.getElem_extractLsb', BitVec.getLsbD_cast, BitVec.getLsbD_append, BitVec.getLsbD_extractLsb']
  interval_cases i <;> rfl

theorem immJRaw_encJ (h : jumpOffsetOk imm = true) : immJRaw (encJ imm rd op) = imm := by
  have h0 : imm.getLsbD 0 = false := by simpa [jumpOffsetOk] using h
  ext i hi
  simp only [immJRaw, encJ, BitVec.getElem_extractLsb', BitVec.getElem_cast, BitVec.getElem_append,
    BitVec.getLsbD_cast, BitVec.getLsbD_append, BitVec.getLsbD_extractLsb']
  interval_cases i <;> first | rfl | exact h0.symm

end

section
variable (fm pred succ : BitVec 4) (rs1 : Reg) (f3 : BitVec 3) (rd : Reg) (op : BitVec 7)

@[simp] theorem fOpcode_encFence : fOpcode (encFence fm pred succ rs1 f3 rd op) = op := by
  ext i hi
  simp only [fOpcode, encFence, BitVec.getElem_extractLsb', BitVec.getLsbD_cast, BitVec.getLsbD_append]
  interval_cases i <;> rfl

@[simp] theorem fRd_encFence : fRd (encFence fm pred succ rs1 f3 rd op) = rd := by
  ext i hi
  simp only [fRd, encFence, BitVec.getElem_extractLsb', BitVec.getLsbD_cast, BitVec.getLsbD_append]
  interval_cases i <;> rfl

@[simp] theorem fFunct3_encFence : fFunct3 (encFence fm pred succ rs1 f3 rd op) = f3 := by
  ext i hi
  simp only [fFunct3, encFence, BitVec.getElem_extractLsb', BitVec.getLsbD_cast, BitVec.getLsbD_append]
  interval_cases i <;> rfl

@[simp] theorem fRs1_encFence : fRs1 (encFence fm pred succ rs1 f3 rd op) = rs1 := by
  ext i hi
  simp only [fRs1, encFence, BitVec.getElem_extractLsb', BitVec.getLsbD_cast, BitVec.getLsbD_append]
  interval_cases i <;> rfl

@[simp] theorem fFm_encFence : fFm (encFence fm pred succ rs1 f3 rd op) = fm := by
  ext i hi
  simp only [fFm, encFence, BitVec.getElem_extractLsb', BitVec.getLsbD_cast, BitVec.getLsbD_append]
  interval_cases i <;> rfl

@[simp] theorem fPred_encFence : fPred (encFence fm pred succ rs1 f3 rd op) = pred := by
  ext i hi
  simp only [fPred, encFence, BitVec.getElem_extractLsb', BitVec.getLsbD_cast, BitVec.getLsbD_append]
  interval_cases i <;> rfl

@[simp] theorem fSucc_encFence : fSucc (encFence fm pred succ rs1 f3 rd op) = succ := by
  ext i hi
  simp only [fSucc, encFence, BitVec.getElem_extractLsb', BitVec.getLsbD_cast, BitVec.getLsbD_append]
  interval_cases i <;> rfl

end

/-- A decoded offset of a branch has bit 0 zero. -/
@[simp] theorem branchOffsetOk_immBRaw (w : Word) : branchOffsetOk (immBRaw w) = true := by
  simp only [branchOffsetOk, immBRaw, BitVec.getLsbD_cast, BitVec.getLsbD_append]
  rfl

/-- A decoded offset of JAL has bit 0 zero. -/
@[simp] theorem jumpOffsetOk_immJRaw (w : Word) : jumpOffsetOk (immJRaw w) = true := by
  simp only [jumpOffsetOk, immJRaw, BitVec.getLsbD_cast, BitVec.getLsbD_append]
  rfl

/-! ## The decision tree, one lemma per major opcode -/

section
variable {w : Word}

theorem matchInstr_lui (h : fOpcode w = 0x37#7) : matchInstr w = some (.lui (fRd w) (immURaw w)) := by
  rw [matchInstr, h]; rfl

theorem matchInstr_auipc (h : fOpcode w = 0x17#7) : matchInstr w = some (.auipc (fRd w) (immURaw w)) := by
  rw [matchInstr, h]; rfl

theorem matchInstr_jal (h : fOpcode w = 0x6F#7) : matchInstr w = some (.jal (fRd w) (immJRaw w)) := by
  rw [matchInstr, h]; rfl

theorem matchInstr_jalr (h : fOpcode w = 0x67#7) : matchInstr w = decodeJalr w := by
  rw [matchInstr, h]; rfl

theorem matchInstr_branch (h : fOpcode w = 0x63#7) : matchInstr w = decodeBranch w := by
  rw [matchInstr, h]; rfl

theorem matchInstr_load (h : fOpcode w = 0x03#7) : matchInstr w = decodeLoad w := by
  rw [matchInstr, h]; rfl

theorem matchInstr_store (h : fOpcode w = 0x23#7) : matchInstr w = decodeStore w := by
  rw [matchInstr, h]; rfl

theorem matchInstr_opImm (h : fOpcode w = 0x13#7) : matchInstr w = decodeOpImm w := by
  rw [matchInstr, h]; rfl

theorem matchInstr_op (h : fOpcode w = 0x33#7) : matchInstr w = decodeOp w := by
  rw [matchInstr, h]; rfl

theorem matchInstr_miscMem (h : fOpcode w = 0x0F#7) : matchInstr w = decodeMiscMem w := by
  rw [matchInstr, h]; rfl

theorem matchInstr_system (h : fOpcode w = 0x73#7) : matchInstr w = decodeSystem w := by
  rw [matchInstr, h]; rfl

end

/-! ## Masks of the opcode table as fields -/

/-- Equality under a mask, bit by bit. -/
theorem and_eq_and_iff (w v m : Word) :
    w &&& m = v &&& m ↔ ∀ i < 32, m.getLsbD i = true → w.getLsbD i = v.getLsbD i := by
  constructor
  · intro h i _ hm
    have := congrArg (·.getLsbD i) h
    simpa [hm] using this
  · intro h
    apply BitVec.eq_of_getLsbD_eq
    intro i hi
    cases hm : m.getLsbD i <;> simp [hm]
    exact h i hi hm

/-- Equality of a field, bit by bit. -/
theorem extractLsb'_eq_iff (w v : Word) (lo n : Nat) :
    w.extractLsb' lo n = v.extractLsb' lo n ↔ ∀ i < n, w.getLsbD (lo + i) = v.getLsbD (lo + i) := by
  constructor
  · intro h i hi
    have := congrArg (·.getLsbD i) h
    simpa [hi] using this
  · intro h
    ext i hi
    simpa using h i hi

/-- The mask of the U and J formats covers the opcode. -/
theorem opcode_mask (w v : Word) : w &&& 0x0000007F#32 = v &&& 0x0000007F#32 ↔ fOpcode w = fOpcode v := by
  simp only [and_eq_and_iff, fOpcode, extractLsb'_eq_iff]
  constructor
  · intro h i hi
    exact h (0 + i) (by omega) (by revert i; decide)
  · intro h i hi hm
    have : i < 7 := by revert i; decide
    simpa using h i this

/-- The mask of the formats that compare `funct3` too. -/
theorem funct3_mask (w v : Word) :
    w &&& 0x0000707F#32 = v &&& 0x0000707F#32 ↔ fOpcode w = fOpcode v ∧ fFunct3 w = fFunct3 v := by
  simp only [and_eq_and_iff, fOpcode, fFunct3, extractLsb'_eq_iff]
  constructor
  · intro h
    exact ⟨fun i hi => h (0 + i) (by omega) (by revert i; decide),
      fun i hi => h (12 + i) (by omega) (by revert i; decide)⟩
  · rintro ⟨h1, h2⟩ i hi hm
    have : i < 7 ∨ 12 ≤ i ∧ i < 15 := by revert i; decide
    rcases this with h | ⟨h, h'⟩
    · simpa using h1 i h
    · simpa [show 12 + (i - 12) = i by omega] using h2 (i - 12) (by omega)

/-- The mask of the formats that compare `funct7` too. -/
theorem funct7_mask (w v : Word) :
    w &&& 0xFE00707F#32 = v &&& 0xFE00707F#32 ↔
      fOpcode w = fOpcode v ∧ fFunct3 w = fFunct3 v ∧ fFunct7 w = fFunct7 v := by
  simp only [and_eq_and_iff, fOpcode, fFunct3, fFunct7, extractLsb'_eq_iff]
  constructor
  · intro h
    exact ⟨fun i hi => h (0 + i) (by omega) (by revert i; decide),
      fun i hi => h (12 + i) (by omega) (by revert i; decide),
      fun i hi => h (25 + i) (by omega) (by revert i; decide)⟩
  · rintro ⟨h1, h2, h3⟩ i hi hm
    have : i < 7 ∨ (12 ≤ i ∧ i < 15) ∨ 25 ≤ i := by revert i; decide
    rcases this with h | ⟨h, h'⟩ | h
    · simpa using h1 i h
    · simpa [show 12 + (i - 12) = i by omega] using h2 (i - 12) (by omega)
    · simpa [show 25 + (i - 25) = i by omega] using h3 (i - 25) (by omega)

/-! ## Words that match a row, by their fields -/

section
variable {p w : Word}

theorem fields_of_opcode_row (hp : p &&& 0x0000007F#32 = p) (h : w &&& 0x0000007F#32 = p) : fOpcode w = fOpcode p :=
  (opcode_mask w p).1 (h.trans hp.symm)

theorem fields_of_funct3_row (hp : p &&& 0x0000707F#32 = p) (h : w &&& 0x0000707F#32 = p) :
    fOpcode w = fOpcode p ∧ fFunct3 w = fFunct3 p :=
  (funct3_mask w p).1 (h.trans hp.symm)

theorem fields_of_funct7_row (hp : p &&& 0xFE00707F#32 = p) (h : w &&& 0xFE00707F#32 = p) :
    fOpcode w = fOpcode p ∧ fFunct3 w = fFunct3 p ∧ fFunct7 w = fFunct7 p :=
  (funct7_mask w p).1 (h.trans hp.symm)

end

/-! ## A word is its fields, format by format -/

section
variable (w : Word)

theorem encI_fields : encI (fCsr w) (fRs1 w) (fFunct3 w) (fRd w) (fOpcode w) = w := by
  apply BitVec.eq_of_getLsbD_eq
  intro i hi
  simp only [encI, fCsr, fRs1, fFunct3, fRd, fOpcode, BitVec.getLsbD_cast, BitVec.getLsbD_append,
    BitVec.getLsbD_extractLsb']
  interval_cases i <;> rfl

theorem encR_fields : encR (fFunct7 w) (fRs2 w) (fRs1 w) (fFunct3 w) (fRd w) (fOpcode w) = w := by
  apply BitVec.eq_of_getLsbD_eq
  intro i hi
  simp only [encR, fRs1, fRs2, fFunct7, fFunct3, fRd, fOpcode, BitVec.getLsbD_cast, BitVec.getLsbD_append,
    BitVec.getLsbD_extractLsb']
  interval_cases i <;> rfl

theorem encS_fields : encS (immSRaw w) (fRs2 w) (fRs1 w) (fFunct3 w) (fOpcode w) = w := by
  apply BitVec.eq_of_getLsbD_eq
  intro i hi
  simp only [encS, immSRaw, fRs1, fRs2, fFunct3, fOpcode, BitVec.getLsbD_cast, BitVec.getLsbD_append,
    BitVec.getLsbD_extractLsb']
  interval_cases i <;> rfl

theorem encB_fields : encB (immBRaw w) (fRs2 w) (fRs1 w) (fFunct3 w) (fOpcode w) = w := by
  apply BitVec.eq_of_getLsbD_eq
  intro i hi
  simp only [encB, immBRaw, fRs1, fRs2, fFunct3, fOpcode, BitVec.getLsbD_cast, BitVec.getLsbD_append,
    BitVec.getLsbD_extractLsb']
  interval_cases i <;> rfl

theorem encU_fields : encU (immURaw w) (fRd w) (fOpcode w) = w := by
  apply BitVec.eq_of_getLsbD_eq
  intro i hi
  simp only [encU, immURaw, fRd, fOpcode, BitVec.getLsbD_cast, BitVec.getLsbD_append, BitVec.getLsbD_extractLsb']
  interval_cases i <;> rfl

theorem encJ_fields : encJ (immJRaw w) (fRd w) (fOpcode w) = w := by
  apply BitVec.eq_of_getLsbD_eq
  intro i hi
  simp only [encJ, immJRaw, fRd, fOpcode, BitVec.getLsbD_cast, BitVec.getLsbD_append, BitVec.getLsbD_extractLsb']
  interval_cases i <;> rfl

theorem encFence_fields :
    encFence (fFm w) (fPred w) (fSucc w) (fRs1 w) (fFunct3 w) (fRd w) (fOpcode w) = w := by
  apply BitVec.eq_of_getLsbD_eq
  intro i hi
  simp only [encFence, fFm, fPred, fSucc, fRs1, fFunct3, fRd, fOpcode, BitVec.getLsbD_cast, BitVec.getLsbD_append,
    BitVec.getLsbD_extractLsb']
  interval_cases i <;> rfl

end

end Sys2Proof
end

