-- ==== Sys2Proof/Laws/PerInstr.lean ====
section
/-! SUPPORT. Statements about every instruction as syntax, one lemma per constructor. -/

-- The proofs below share one set of match equations: elaborated one after another they make them once.
set_option Elab.async false

namespace Sys2Proof.Laws

/-- The family `RoundTrip`: the decoder reads a well-formed instruction back from its word, every operand with it. -/
def RoundTrip.Statement (i : Instr) : Prop := i.wf = true → decodeWord (encode i) = .ok i

theorem RoundTrip.lui (rd : Reg) (imm : BitVec 20) : RoundTrip.Statement (.lui rd imm) := by
  intro _; simp [decodeWord, encode, matchInstr_lui]

theorem RoundTrip.auipc (rd : Reg) (imm : BitVec 20) : RoundTrip.Statement (.auipc rd imm) := by
  intro _; simp [decodeWord, encode, matchInstr_auipc]

theorem RoundTrip.jal (rd : Reg) (imm : BitVec 21) : RoundTrip.Statement (.jal rd imm) := by
  intro h
  have h' : jumpOffsetOk imm = true := h
  simp [decodeWord, encode, matchInstr_jal, immJRaw_encJ _ _ _ h']

theorem RoundTrip.jalr (rd rs1 : Reg) (imm : BitVec 12) : RoundTrip.Statement (.jalr rd rs1 imm) := by
  intro _; simp [decodeWord, encode, matchInstr_jalr, decodeJalr]

theorem RoundTrip.beq (rs1 rs2 : Reg) (imm : BitVec 13) : RoundTrip.Statement (.beq rs1 rs2 imm) := by
  intro h
  have h' : branchOffsetOk imm = true := h
  simp [decodeWord, encode, matchInstr_branch, decodeBranch, immBRaw_encB _ _ _ _ _ h']

theorem RoundTrip.bne (rs1 rs2 : Reg) (imm : BitVec 13) : RoundTrip.Statement (.bne rs1 rs2 imm) := by
  intro h
  have h' : branchOffsetOk imm = true := h
  simp [decodeWord, encode, matchInstr_branch, decodeBranch, immBRaw_encB _ _ _ _ _ h']

theorem RoundTrip.blt (rs1 rs2 : Reg) (imm : BitVec 13) : RoundTrip.Statement (.blt rs1 rs2 imm) := by
  intro h
  have h' : branchOffsetOk imm = true := h
  simp [decodeWord, encode, matchInstr_branch, decodeBranch, immBRaw_encB _ _ _ _ _ h']

theorem RoundTrip.bge (rs1 rs2 : Reg) (imm : BitVec 13) : RoundTrip.Statement (.bge rs1 rs2 imm) := by
  intro h
  have h' : branchOffsetOk imm = true := h
  simp [decodeWord, encode, matchInstr_branch, decodeBranch, immBRaw_encB _ _ _ _ _ h']

theorem RoundTrip.bltu (rs1 rs2 : Reg) (imm : BitVec 13) : RoundTrip.Statement (.bltu rs1 rs2 imm) := by
  intro h
  have h' : branchOffsetOk imm = true := h
  simp [decodeWord, encode, matchInstr_branch, decodeBranch, immBRaw_encB _ _ _ _ _ h']

theorem RoundTrip.bgeu (rs1 rs2 : Reg) (imm : BitVec 13) : RoundTrip.Statement (.bgeu rs1 rs2 imm) := by
  intro h
  have h' : branchOffsetOk imm = true := h
  simp [decodeWord, encode, matchInstr_branch, decodeBranch, immBRaw_encB _ _ _ _ _ h']

theorem RoundTrip.lb (rd rs1 : Reg) (imm : BitVec 12) : RoundTrip.Statement (.lb rd rs1 imm) := by
  intro _; simp [decodeWord, encode, matchInstr_load, decodeLoad]

theorem RoundTrip.lh (rd rs1 : Reg) (imm : BitVec 12) : RoundTrip.Statement (.lh rd rs1 imm) := by
  intro _; simp [decodeWord, encode, matchInstr_load, decodeLoad]

theorem RoundTrip.lw (rd rs1 : Reg) (imm : BitVec 12) : RoundTrip.Statement (.lw rd rs1 imm) := by
  intro _; simp [decodeWord, encode, matchInstr_load, decodeLoad]

theorem RoundTrip.lbu (rd rs1 : Reg) (imm : BitVec 12) : RoundTrip.Statement (.lbu rd rs1 imm) := by
  intro _; simp [decodeWord, encode, matchInstr_load, decodeLoad]

theorem RoundTrip.lhu (rd rs1 : Reg) (imm : BitVec 12) : RoundTrip.Statement (.lhu rd rs1 imm) := by
  intro _; simp [decodeWord, encode, matchInstr_load, decodeLoad]

theorem RoundTrip.sb (rs1 rs2 : Reg) (imm : BitVec 12) : RoundTrip.Statement (.sb rs1 rs2 imm) := by
  intro _; simp [decodeWord, encode, matchInstr_store, decodeStore]

theorem RoundTrip.sh (rs1 rs2 : Reg) (imm : BitVec 12) : RoundTrip.Statement (.sh rs1 rs2 imm) := by
  intro _; simp [decodeWord, encode, matchInstr_store, decodeStore]

theorem RoundTrip.sw (rs1 rs2 : Reg) (imm : BitVec 12) : RoundTrip.Statement (.sw rs1 rs2 imm) := by
  intro _; simp [decodeWord, encode, matchInstr_store, decodeStore]

theorem RoundTrip.addi (rd rs1 : Reg) (imm : BitVec 12) : RoundTrip.Statement (.addi rd rs1 imm) := by
  intro _; simp [decodeWord, encode, matchInstr_opImm, decodeOpImm]

theorem RoundTrip.slti (rd rs1 : Reg) (imm : BitVec 12) : RoundTrip.Statement (.slti rd rs1 imm) := by
  intro _; simp [decodeWord, encode, matchInstr_opImm, decodeOpImm]

theorem RoundTrip.sltiu (rd rs1 : Reg) (imm : BitVec 12) : RoundTrip.Statement (.sltiu rd rs1 imm) := by
  intro _; simp [decodeWord, encode, matchInstr_opImm, decodeOpImm]

theorem RoundTrip.xori (rd rs1 : Reg) (imm : BitVec 12) : RoundTrip.Statement (.xori rd rs1 imm) := by
  intro _; simp [decodeWord, encode, matchInstr_opImm, decodeOpImm]

theorem RoundTrip.ori (rd rs1 : Reg) (imm : BitVec 12) : RoundTrip.Statement (.ori rd rs1 imm) := by
  intro _; simp [decodeWord, encode, matchInstr_opImm, decodeOpImm]

theorem RoundTrip.andi (rd rs1 : Reg) (imm : BitVec 12) : RoundTrip.Statement (.andi rd rs1 imm) := by
  intro _; simp [decodeWord, encode, matchInstr_opImm, decodeOpImm]

theorem RoundTrip.slli (rd rs1 : Reg) (shamt : BitVec 5) : RoundTrip.Statement (.slli rd rs1 shamt) := by
  intro _; simp [decodeWord, encode, matchInstr_opImm, decodeOpImm]

theorem RoundTrip.srli (rd rs1 : Reg) (shamt : BitVec 5) : RoundTrip.Statement (.srli rd rs1 shamt) := by
  intro _; simp [decodeWord, encode, matchInstr_opImm, decodeOpImm]

theorem RoundTrip.srai (rd rs1 : Reg) (shamt : BitVec 5) : RoundTrip.Statement (.srai rd rs1 shamt) := by
  intro _; simp [decodeWord, encode, matchInstr_opImm, decodeOpImm]

theorem RoundTrip.add (rd rs1 rs2 : Reg) : RoundTrip.Statement (.add rd rs1 rs2) := by
  intro _; simp [decodeWord, encode, matchInstr_op, decodeOp]

theorem RoundTrip.sub (rd rs1 rs2 : Reg) : RoundTrip.Statement (.sub rd rs1 rs2) := by
  intro _; simp [decodeWord, encode, matchInstr_op, decodeOp]

theorem RoundTrip.sll (rd rs1 rs2 : Reg) : RoundTrip.Statement (.sll rd rs1 rs2) := by
  intro _; simp [decodeWord, encode, matchInstr_op, decodeOp]

theorem RoundTrip.slt (rd rs1 rs2 : Reg) : RoundTrip.Statement (.slt rd rs1 rs2) := by
  intro _; simp [decodeWord, encode, matchInstr_op, decodeOp]

theorem RoundTrip.sltu (rd rs1 rs2 : Reg) : RoundTrip.Statement (.sltu rd rs1 rs2) := by
  intro _; simp [decodeWord, encode, matchInstr_op, decodeOp]

theorem RoundTrip.xor (rd rs1 rs2 : Reg) : RoundTrip.Statement (.xor rd rs1 rs2) := by
  intro _; simp [decodeWord, encode, matchInstr_op, decodeOp]

theorem RoundTrip.srl (rd rs1 rs2 : Reg) : RoundTrip.Statement (.srl rd rs1 rs2) := by
  intro _; simp [decodeWord, encode, matchInstr_op, decodeOp]

theorem RoundTrip.sra (rd rs1 rs2 : Reg) : RoundTrip.Statement (.sra rd rs1 rs2) := by
  intro _; simp [decodeWord, encode, matchInstr_op, decodeOp]

theorem RoundTrip.or (rd rs1 rs2 : Reg) : RoundTrip.Statement (.or rd rs1 rs2) := by
  intro _; simp [decodeWord, encode, matchInstr_op, decodeOp]

theorem RoundTrip.and (rd rs1 rs2 : Reg) : RoundTrip.Statement (.and rd rs1 rs2) := by
  intro _; simp [decodeWord, encode, matchInstr_op, decodeOp]

theorem RoundTrip.fence (fm pred succ : BitVec 4) (rs1 rd : Reg) : RoundTrip.Statement (.fence fm pred succ rs1 rd) := by
  intro _; simp [decodeWord, encode, matchInstr_miscMem, decodeMiscMem]

theorem RoundTrip.csrrw (rd rs1 : Reg) (csr : CsrIdx) : RoundTrip.Statement (.csrrw rd rs1 csr) := by
  intro _; simp [decodeWord, encode, matchInstr_system, decodeSystem]

theorem RoundTrip.csrrs (rd rs1 : Reg) (csr : CsrIdx) : RoundTrip.Statement (.csrrs rd rs1 csr) := by
  intro _; simp [decodeWord, encode, matchInstr_system, decodeSystem]

theorem RoundTrip.csrrc (rd rs1 : Reg) (csr : CsrIdx) : RoundTrip.Statement (.csrrc rd rs1 csr) := by
  intro _; simp [decodeWord, encode, matchInstr_system, decodeSystem]

theorem RoundTrip.csrrwi (rd : Reg) (zimm : BitVec 5) (csr : CsrIdx) : RoundTrip.Statement (.csrrwi rd zimm csr) := by
  intro _; simp [decodeWord, encode, matchInstr_system, decodeSystem]

theorem RoundTrip.csrrsi (rd : Reg) (zimm : BitVec 5) (csr : CsrIdx) : RoundTrip.Statement (.csrrsi rd zimm csr) := by
  intro _; simp [decodeWord, encode, matchInstr_system, decodeSystem]

theorem RoundTrip.csrrci (rd : Reg) (zimm : BitVec 5) (csr : CsrIdx) : RoundTrip.Statement (.csrrci rd zimm csr) := by
  intro _; simp [decodeWord, encode, matchInstr_system, decodeSystem]

theorem RoundTrip.ecall : RoundTrip.Statement .ecall := by
  intro _; decide

theorem RoundTrip.mret : RoundTrip.Statement .mret := by
  intro _; decide

end Sys2Proof.Laws
end

