-- ==== Sys2Proof/Machine/Pipeline.lean ====
section
/-! DEFINITION. The step as the spec writes it, stage by stage (40_pipeline R111 to R123): Fetch, Decode into the
bundle of 10_state R37 through the table of masks, Execute into the bundle of R38, Writeback in its two phases, and the
program-counter update, for any configuration of 00_scope R8. `Machine.step` is the same machine at the spec's
configuration, instruction by instruction. -/

namespace Sys2Proof.Machine

/-- The decoded instruction (10_state R37), with the six fields of 30_encoding R81 as they stand in the word, whatever
its format: it lives for one step. Execute and Writeback take the registers' values and `rd` from it; the other fields
of R81 are held and read by no rule. -/
structure DecodedInstr where
  op : Mnemonic
  opcode : BitVec 7
  rd : Reg
  funct3 : BitVec 3
  rs1 : Reg
  rs2 : Reg
  funct7 : BitVec 7
  rs1Data : Word
  rs2Data : Word
  immIRaw : BitVec 12
  immI : Word
  immSRaw : BitVec 12
  immS : Word
  immBRaw : BitVec 13
  immB : Word
  immJRaw : BitVec 21
  immJ : Word
  immURaw : BitVec 20
  immU : Word
  zimm : Word
  csrIdx : CsrIdx
deriving DecidableEq, Repr

/-- Decode (R114, R115): the classification, the fields (30_encoding R81), both source registers as they stand at the
start of the step, and every immediate whatever the classification (R89). -/
def decodeStage (w : Word) (s : State) : Option DecodedInstr :=
  match classify w with
  | none => none
  | some op => some {
      op := op
      opcode := fOpcode w
      rd := fRd w
      funct3 := fFunct3 w
      rs1 := fRs1 w
      rs2 := fRs2 w
      funct7 := fFunct7 w
      rs1Data := s.getX (fRs1 w)
      rs2Data := s.getX (fRs2 w)
      immIRaw := immIRaw w
      immI := sextImm12 (immIRaw w)
      immSRaw := immSRaw w
      immS := sextImm12 (immSRaw w)
      immBRaw := immBRaw w
      immB := sextImm13 (immBRaw w)
      immJRaw := immJRaw w
      immJ := sextImm21 (immJRaw w)
      immURaw := immURaw w
      immU := shiftImm20 (immURaw w)
      zimm := zextImm5 (fRs1 w)
      csrIdx := fCsr w }

/-- The execute result (10_state R38): it lives for one step. -/
structure ExecuteResult where
  aluResult : Word
  branchTarget : Option Word
  jumpTarget : Option Word
deriving DecidableEq, Repr

/-- An `alu_result` and no target. -/
def ExecuteResult.alu (v : Word) : ExecuteResult := ⟨v, none, none⟩

/-- A branch target, present only when taken (R118); the `alu_result` is not used (R117, log entry 19). -/
def ExecuteResult.branch (taken : Bool) (target : Word) : ExecuteResult :=
  ⟨Config.unusedAluResult, if taken then some target else none, none⟩

/-- The link value and a jump target (44_jump R210, R211). -/
def ExecuteResult.jump (link target : Word) : ExecuteResult := ⟨link, none, some target⟩

/-- No target and no `alu_result` that is used. -/
def ExecuteResult.unused : ExecuteResult := ⟨Config.unusedAluResult, none, none⟩

/-- Execute (R117): a function of the decoded instruction and `pc` alone; it has no error. -/
def executeStage (d : DecodedInstr) (pc : Word) : ExecuteResult :=
  match d.op with
  | .add => .alu (d.rs1Data + d.rs2Data)
  | .sub => .alu (d.rs1Data - d.rs2Data)
  | .and => .alu (d.rs1Data &&& d.rs2Data)
  | .or => .alu (d.rs1Data ||| d.rs2Data)
  | .xor => .alu (d.rs1Data ^^^ d.rs2Data)
  | .addi => .alu (d.rs1Data + d.immI)
  | .andi => .alu (d.rs1Data &&& d.immI)
  | .ori => .alu (d.rs1Data ||| d.immI)
  | .xori => .alu (d.rs1Data ^^^ d.immI)
  | .sll => .alu (d.rs1Data <<< shiftAmount d.rs2Data)
  | .srl => .alu (d.rs1Data >>> shiftAmount d.rs2Data)
  | .sra => .alu (d.rs1Data.sshiftRight (shiftAmount d.rs2Data))
  | .slli => .alu (d.rs1Data <<< shiftAmount d.immI)
  | .srli => .alu (d.rs1Data >>> shiftAmount d.immI)
  | .srai => .alu (d.rs1Data.sshiftRight (shiftAmount d.immI))
  | .slt => .alu (boolWord (ltSigned d.rs1Data d.rs2Data))
  | .sltu => .alu (boolWord (ltUnsigned d.rs1Data d.rs2Data))
  | .slti => .alu (boolWord (ltSigned d.rs1Data d.immI))
  | .sltiu => .alu (boolWord (ltUnsigned d.rs1Data d.immI))
  | .beq => .branch (d.rs1Data == d.rs2Data) (pc + d.immB)
  | .bne => .branch (d.rs1Data != d.rs2Data) (pc + d.immB)
  | .blt => .branch (ltSigned d.rs1Data d.rs2Data) (pc + d.immB)
  | .bge => .branch (!ltSigned d.rs1Data d.rs2Data) (pc + d.immB)
  | .bltu => .branch (ltUnsigned d.rs1Data d.rs2Data) (pc + d.immB)
  | .bgeu => .branch (!ltUnsigned d.rs1Data d.rs2Data) (pc + d.immB)
  | .lb | .lh | .lw | .lbu | .lhu => .alu (d.rs1Data + d.immI)
  | .sb | .sh | .sw => .alu (d.rs1Data + d.immS)
  | .jal => .jump (pc + 4#32) (pc + d.immJ)
  | .jalr => .jump (pc + 4#32) ((d.rs1Data + d.immI) &&& 0xFFFFFFFE#32)
  | .lui => .alu d.immU
  | .auipc => .alu (pc + d.immU)
  | .csrrw | .csrrs | .csrrc | .csrrwi | .csrrsi | .csrrci | .ecall | .mret | .fence => .unused

/-- The value Writeback phase 1 writes to `csr[csr_idx]`, for the six CSR instructions only (R119, 46_csr R230). -/
def csrNew (d : DecodedInstr) (old : Word) : Option Word :=
  match d.op with
  | .csrrw => some d.rs1Data
  | .csrrs => some (old ||| d.rs1Data)
  | .csrrc => some (old &&& ~~~d.rs1Data)
  | .csrrwi => some d.zimm
  | .csrrsi => some (old ||| d.zimm)
  | .csrrci => some (old &&& ~~~d.zimm)
  | .lui | .auipc | .jal | .jalr | .beq | .bne | .blt | .bge | .bltu | .bgeu
  | .lb | .lh | .lw | .lbu | .lhu | .sb | .sh | .sw
  | .addi | .slti | .sltiu | .xori | .ori | .andi | .slli | .srli | .srai
  | .add | .sub | .sll | .slt | .sltu | .xor | .srl | .sra | .or | .and
  | .fence | .ecall | .mret => none

/-- Writeback phase 1 (R119): the CSR write. -/
def writebackCsr (d : DecodedInstr) (s : State) : State :=
  match csrNew d (s.getCsr d.csrIdx) with
  | some v => s.setCsr d.csrIdx v
  | none => s

/-- A load's phase 2: `x[rd] <- ext(MemRead(alu_result, n))`. -/
def writebackLoad (c : Config) (d : DecodedInstr) (addr : Word) (w : Width) (ext : Word → Word) (s : State) :
    Except AccessStop State :=
  match memRead c s.mem addr w with
  | .ok v => .ok (s.setX d.rd (ext v))
  | .error e => .error e

/-- A store's phase 2: `MemWrite(alu_result, n, rs2_data)`. -/
def writebackStore (c : Config) (d : DecodedInstr) (addr : Word) (w : Width) (s : State) : Except AccessStop State :=
  match memWrite c s.mem addr w d.rs2Data with
  | .ok m => .ok (s.setMem m)
  | .error e => .error e

/-- Writeback phase 2, the destination effect by instruction class (R120); `old` is the CSR value that phase 1 read
before it wrote. -/
def writebackDest (c : Config) (d : DecodedInstr) (e : ExecuteResult) (old : Word) (s : State) :
    Except AccessStop State :=
  match d.op with
  | .lb => writebackLoad c d e.aluResult .byte sext8 s
  | .lh => writebackLoad c d e.aluResult .half sext16 s
  | .lw => writebackLoad c d e.aluResult .word id s
  | .lbu => writebackLoad c d e.aluResult .byte zext8 s
  | .lhu => writebackLoad c d e.aluResult .half zext16 s
  | .sb => writebackStore c d e.aluResult .byte s
  | .sh => writebackStore c d e.aluResult .half s
  | .sw => writebackStore c d e.aluResult .word s
  | .beq | .bne | .blt | .bge | .bltu | .bgeu | .mret | .fence => .ok s
  | .csrrw | .csrrs | .csrrc | .csrrwi | .csrrsi | .csrrci => .ok (s.setX d.rd old)
  | .ecall => .ok (s.setCsr c.trapCauseCsr c.ecallCause)
  | .lui | .auipc | .jal | .jalr
  | .addi | .slti | .sltiu | .xori | .ori | .andi | .slli | .srli | .srai
  | .add | .sub | .sll | .slt | .sltu | .xor | .srl | .sra | .or | .and => .ok (s.setX d.rd e.aluResult)

/-- Writeback: phase 1, then phase 2 (R119). -/
def writebackStage (c : Config) (d : DecodedInstr) (e : ExecuteResult) (s : State) : Except AccessStop State :=
  writebackDest c d e (s.getCsr d.csrIdx) (writebackCsr d s)

/-- The program-counter update in its priority order (R122), with the run state it leaves (R123). -/
def pcUpdate (d : DecodedInstr) (e : ExecuteResult) (s : State) : State :=
  match e.branchTarget, e.jumpTarget with
  | some t, _ => s.setPc t
  | none, some t => s.setPc t
  | none, none => if d.op = .ecall then (s.setPc (s.getCsr trapVectorCsr)).setRun .halted else s.setPc s.pcPlus4

/-- The stages after a successful Fetch (R112). -/
def stagesAfterFetch (c : Config) (w : Word) (s : State) : Outcome :=
  match decodeStage w s with
  | none => .fault .unmatchedOpcode
  | some d =>
    match writebackStage c d (executeStage d s.pc) s with
    | .error e => dataStop e
    | .ok t => .next (pcUpdate d (executeStage d s.pc) t)

/-- `step()` of R112, at configuration `c`. -/
def pipelineStep (c : Config) (s : State) : Outcome :=
  match s.run with
  | .running =>
    match fetch c s with
    | .error e => (fetchStop e).outcome
    | .ok w => stagesAfterFetch c w s
  | .halted => .refused (.noStepDefined .halted)
  | .faulted => .refused (.noStepDefined .faulted)

/-- The reset state at configuration `c` (70_reset_and_hazards R290 to R295). -/
def resetOf (c : Config) : State where
  pc := c.resetPc
  x := (Vector.replicate 32 0#32).set 2 (c.dramBase + BitVec.ofNat 32 c.dramSize)
  csr := ((List.range 4096).map fun k => (k, c.csrReset (BitVec.ofNat 12 k))).filter
    fun e => e.2 != SparseMap.unlisted 32
  run := .running
  mem := []

end Sys2Proof.Machine
end

