-- ==== Sys2Proof/Machine/Assembly.lean ====
section
/-! DEFINITION. Assembler spelling and pseudo-instructions (30_encoding R99, R100; 10_state R27), the spec's decision
D17. Nothing of the machine depends on this file. -/

namespace Sys2Proof.Machine

/-! ## Operand syntax (R99) -/

/-- The ABI name of a register (R27). -/
def abiName (r : Reg) : String :=
  (["zero", "ra", "sp", "gp", "tp", "t0", "t1", "t2", "s0", "s1", "a0", "a1", "a2", "a3", "a4", "a5"] ++
    ["a6", "a7", "s2", "s3", "s4", "s5", "s6", "s7", "s8", "s9", "s10", "s11", "t3", "t4", "t5", "t6"]).getD
    r.toNat ""

/-- A register by number, `x0` to `x31`. -/
def xName (r : Reg) : String := "x" ++ toString r.toNat

def hexText (n : Nat) : String := "0x" ++ String.ofList (Nat.toDigits 16 n)

def asmR (op : String) (rd rs1 rs2 : Reg) : String := op ++ " " ++ xName rd ++ ", " ++ xName rs1 ++ ", " ++ xName rs2
def asmI (op : String) (rd rs1 : Reg) (imm : Int) : String :=
  op ++ " " ++ xName rd ++ ", " ++ xName rs1 ++ ", " ++ toString imm
def asmMem (op : String) (r rs1 : Reg) (imm : Int) : String :=
  op ++ " " ++ xName r ++ ", " ++ toString imm ++ "(" ++ xName rs1 ++ ")"
def asmU (op : String) (rd : Reg) (imm : Nat) : String := op ++ " " ++ xName rd ++ ", " ++ hexText imm
def asmCsr (op : String) (rd : Reg) (csr : CsrIdx) (src : String) : String :=
  op ++ " " ++ xName rd ++ ", " ++ hexText csr.toNat ++ ", " ++ src

/-- The letters of a FENCE set, most significant bit first: `0x3` is `rw` (95_test_vectors Y5). -/
def fenceSet (b : BitVec 4) : String :=
  (if b.getLsbD 3 then "i" else "") ++ (if b.getLsbD 2 then "o" else "") ++
    (if b.getLsbD 1 then "r" else "") ++ (if b.getLsbD 0 then "w" else "")

/-- The assembler text of an instruction (R99), registers by number. -/
def asm : Instr → String
  | .lui rd imm => asmU "lui" rd imm.toNat
  | .auipc rd imm => asmU "auipc" rd imm.toNat
  | .jal rd imm => "jal " ++ xName rd ++ ", " ++ toString imm.toInt
  | .jalr rd rs1 imm => asmMem "jalr" rd rs1 imm.toInt
  | .beq rs1 rs2 imm => asmI "beq" rs1 rs2 imm.toInt
  | .bne rs1 rs2 imm => asmI "bne" rs1 rs2 imm.toInt
  | .blt rs1 rs2 imm => asmI "blt" rs1 rs2 imm.toInt
  | .bge rs1 rs2 imm => asmI "bge" rs1 rs2 imm.toInt
  | .bltu rs1 rs2 imm => asmI "bltu" rs1 rs2 imm.toInt
  | .bgeu rs1 rs2 imm => asmI "bgeu" rs1 rs2 imm.toInt
  | .lb rd rs1 imm => asmMem "lb" rd rs1 imm.toInt
  | .lh rd rs1 imm => asmMem "lh" rd rs1 imm.toInt
  | .lw rd rs1 imm => asmMem "lw" rd rs1 imm.toInt
  | .lbu rd rs1 imm => asmMem "lbu" rd rs1 imm.toInt
  | .lhu rd rs1 imm => asmMem "lhu" rd rs1 imm.toInt
  | .sb rs1 rs2 imm => asmMem "sb" rs2 rs1 imm.toInt
  | .sh rs1 rs2 imm => asmMem "sh" rs2 rs1 imm.toInt
  | .sw rs1 rs2 imm => asmMem "sw" rs2 rs1 imm.toInt
  | .addi rd rs1 imm => asmI "addi" rd rs1 imm.toInt
  | .slti rd rs1 imm => asmI "slti" rd rs1 imm.toInt
  | .sltiu rd rs1 imm => asmI "sltiu" rd rs1 imm.toInt
  | .xori rd rs1 imm => asmI "xori" rd rs1 imm.toInt
  | .ori rd rs1 imm => asmI "ori" rd rs1 imm.toInt
  | .andi rd rs1 imm => asmI "andi" rd rs1 imm.toInt
  | .slli rd rs1 shamt => asmI "slli" rd rs1 shamt.toNat
  | .srli rd rs1 shamt => asmI "srli" rd rs1 shamt.toNat
  | .srai rd rs1 shamt => asmI "srai" rd rs1 shamt.toNat
  | .add rd rs1 rs2 => asmR "add" rd rs1 rs2
  | .sub rd rs1 rs2 => asmR "sub" rd rs1 rs2
  | .sll rd rs1 rs2 => asmR "sll" rd rs1 rs2
  | .slt rd rs1 rs2 => asmR "slt" rd rs1 rs2
  | .sltu rd rs1 rs2 => asmR "sltu" rd rs1 rs2
  | .xor rd rs1 rs2 => asmR "xor" rd rs1 rs2
  | .srl rd rs1 rs2 => asmR "srl" rd rs1 rs2
  | .sra rd rs1 rs2 => asmR "sra" rd rs1 rs2
  | .or rd rs1 rs2 => asmR "or" rd rs1 rs2
  | .and rd rs1 rs2 => asmR "and" rd rs1 rs2
  | .fence _ pred succ _ _ => "fence " ++ fenceSet pred ++ ", " ++ fenceSet succ
  | .csrrw rd rs1 csr => asmCsr "csrrw" rd csr (xName rs1)
  | .csrrs rd rs1 csr => asmCsr "csrrs" rd csr (xName rs1)
  | .csrrc rd rs1 csr => asmCsr "csrrc" rd csr (xName rs1)
  | .csrrwi rd zimm csr => asmCsr "csrrwi" rd csr (toString zimm.toNat)
  | .csrrsi rd zimm csr => asmCsr "csrrsi" rd csr (toString zimm.toNat)
  | .csrrci rd zimm csr => asmCsr "csrrci" rd csr (toString zimm.toNat)
  | .ecall => "ecall"
  | .mret => "mret"

/-! ## Pseudo-instructions (R100) -/

/-- The pseudo-instructions of R100. `la` takes `delta = sym - pc`; offsets are the raw `imm_b` and `imm_j`. -/
inductive Pseudo where
  | nop
  | li (rd : Reg) (imm : Word)
  | la (rd : Reg) (delta : Word)
  | mv (rd rs : Reg)
  | not (rd rs : Reg)
  | neg (rd rs : Reg)
  | seqz (rd rs : Reg)
  | snez (rd rs : Reg)
  | sltz (rd rs : Reg)
  | sgtz (rd rs : Reg)
  | beqz (rs : Reg) (off : BitVec 13)
  | bnez (rs : Reg) (off : BitVec 13)
  | blez (rs : Reg) (off : BitVec 13)
  | bgez (rs : Reg) (off : BitVec 13)
  | bltz (rs : Reg) (off : BitVec 13)
  | bgtz (rs : Reg) (off : BitVec 13)
  | bgt (a b : Reg) (off : BitVec 13)
  | ble (a b : Reg) (off : BitVec 13)
  | bgtu (a b : Reg) (off : BitVec 13)
  | bleu (a b : Reg) (off : BitVec 13)
  | j (off : BitVec 21)
  | jal (off : BitVec 21)
  | jr (rs : Reg)
  | jalr (rs : Reg)
  | ret
  | call (off : BitVec 21)
  | csrr (rd : Reg) (csr : CsrIdx)
  | csrw (csr : CsrIdx) (rs : Reg)
  | csrs (csr : CsrIdx) (rs : Reg)
  | csrc (csr : CsrIdx) (rs : Reg)
  | csrwi (csr : CsrIdx) (zimm : BitVec 5)
  | csrsi (csr : CsrIdx) (zimm : BitVec 5)
  | csrci (csr : CsrIdx) (zimm : BitVec 5)
deriving DecidableEq, Repr

/-- The upper part of a split constant: `(imm + 0x800) >> 12`, modulo 2^20. -/
def hi20 (imm : Word) : BitVec 20 := ((imm + 0x800) >>> 12).setWidth 20

/-- The lower part of a split constant: `imm[11:0]`, which the instruction sign-extends. -/
def lo12 (imm : Word) : BitVec 12 := imm.setWidth 12

/-- `-2048 ≤ imm ≤ 2047`. -/
def fitsImm12 (imm : Word) : Bool := (lo12 imm).signExtend 32 == imm

/-- The expansion of a pseudo-instruction (R100). -/
def expand : Pseudo → List Instr
  | .nop => [.addi 0 0 0]
  | .li rd imm =>
    if fitsImm12 imm then [.addi rd 0 (lo12 imm)] else [.lui rd (hi20 imm), .addi rd rd (lo12 imm)]
  | .la rd delta => [.auipc rd (hi20 delta), .addi rd rd (lo12 delta)]
  | .mv rd rs => [.addi rd rs 0]
  | .not rd rs => [.xori rd rs 0xFFF]
  | .neg rd rs => [.sub rd 0 rs]
  | .seqz rd rs => [.sltiu rd rs 1]
  | .snez rd rs => [.sltu rd 0 rs]
  | .sltz rd rs => [.slt rd rs 0]
  | .sgtz rd rs => [.slt rd 0 rs]
  | .beqz rs off => [.beq rs 0 off]
  | .bnez rs off => [.bne rs 0 off]
  | .blez rs off => [.bge 0 rs off]
  | .bgez rs off => [.bge rs 0 off]
  | .bltz rs off => [.blt rs 0 off]
  | .bgtz rs off => [.blt 0 rs off]
  | .bgt a b off => [.blt b a off]
  | .ble a b off => [.bge b a off]
  | .bgtu a b off => [.bltu b a off]
  | .bleu a b off => [.bgeu b a off]
  | .j off => [.jal 0 off]
  | .jal off => [.jal 1 off]
  | .jr rs => [.jalr 0 rs 0]
  | .jalr rs => [.jalr 1 rs 0]
  | .ret => [.jalr 0 1 0]
  | .call off => [.jal 1 off]
  | .csrr rd csr => [.csrrs rd 0 csr]
  | .csrw csr rs => [.csrrw 0 rs csr]
  | .csrs csr rs => [.csrrs 0 rs csr]
  | .csrc csr rs => [.csrrc 0 rs csr]
  | .csrwi csr zimm => [.csrrwi 0 zimm csr]
  | .csrsi csr zimm => [.csrrsi 0 zimm csr]
  | .csrci csr zimm => [.csrrci 0 zimm csr]

end Sys2Proof.Machine
end

