-- ==== Sys2Proof/Machine/Session.lean ====
section
/-! DEFINITION. The host's side of the core (40_pipeline R110): `load`, `step` and the read-only inspections, with the
records they answer (60_exceptions R260) and the order of the boot sequence (70_reset_and_hazards R296). The run-to-halt
loop is host software and out of scope (00_scope R5). -/

namespace Sys2Proof.Machine

/-! ## Error records (R260) -/

/-- Which stage an error names; no step produces `execute` (R261). -/
inductive Stage where
  | fetch
  | decode
  | execute
  | writeback
  | load
deriving DecidableEq, Repr

inductive ErrorKind where
  | addressOutOfBounds
  | unmatchedOpcode
deriving DecidableEq, Repr

/-- `Error(stage, layer, kind)`; the optional diagnostic payload is left out (log entry 20). -/
structure ErrorRecord where
  stage : Stage
  layer : Option Layer
  kind : ErrorKind
deriving DecidableEq, Repr

/-- The record of a step's error (R261). -/
def faultRecord : Fault → ErrorRecord
  | .fetchOutOfBounds l => ⟨.fetch, some l, .addressOutOfBounds⟩
  | .unmatchedOpcode => ⟨.decode, none, .unmatchedOpcode⟩
  | .dataOutOfBounds l => ⟨.writeback, some l, .addressOutOfBounds⟩

/-! ## The session: a core and what the host has done with it -/

/-- A constructed core that takes loads; a core that has made a step; a run that faulted, whose state is any value
(R264), so none is held (log entry 10); a session that was refused, with the mark R265 asks for. DESIGN CHOICE (log
entry 11): whatever the model refuses, a step or a load, ends the session as `refused` with no state, because the spec
does not say what the core is after a call it does not define (00_scope R16). -/
inductive Session where
  | loading (s : State)
  | started (s : State)
  | faulted (e : ErrorRecord)
  | refused (r : Refusal)
deriving DecidableEq, Repr

/-- Construction of the core (R296): the reset state, no step made. -/
def Session.construct : Session := .loading State.reset

/-- What `step()` answers (R110, R123), and the refusals of the model. -/
inductive StepResult where
  | ordinary
  | halted
  | error (e : ErrorRecord)
  | refused (r : Refusal)
deriving DecidableEq, Repr

/-- What a step of the core makes of the session. -/
def Session.afterStep : Outcome → Session × StepResult
  | .next t => (.started t, if t.run = .halted then .halted else .ordinary)
  | .fault f => (.faulted (faultRecord f), .error (faultRecord f))
  | .refused r => (.refused r, .refused r)

/-- The host's `step()`. A step that is not defined (R112, R263, R278) is refused, and the session with it (DESIGN
CHOICE, log entry 11). -/
def Session.step : Session → Session × StepResult
  | .loading s | .started s => Session.afterStep (Machine.step s)
  | .faulted _ => (.refused (.noStepDefined .faulted), .refused (.noStepDefined .faulted))
  | .refused r => (.refused r, .refused r)

/-! ## The host's load (20_memory R73) -/

/-- What `load` answers (R110), and the refusals of the model. -/
inductive LoadResult where
  | ok
  | error (e : ErrorRecord)
  | refused (r : Refusal)
deriving DecidableEq, Repr

/-- Copy bytes verbatim to a global address after both bound checks on the whole range; a load that fails changes no
byte (D14). No alignment is asked. -/
def loadBytes (c : Config) (m : Memory) (addr : Word) (bytes : List Byte) : Except AccessStop Memory :=
  match boundsStop c addr bytes.length with
  | some e => .error e
  | none => .ok (writeBytes m addr.toNat bytes)

/-- What the host is told of a load that stops (R261). -/
def loadError : AccessStop → LoadResult
  | .outOfBounds l => .error ⟨.load, some l, .addressOutOfBounds⟩
  | .misaligned => .refused .misalignedData

/-- What a load before the first step makes of the session: the new memory, or the error of R261 and nothing changed.
The bound checks of `loadBytes` answer no other stop. -/
def Session.afterLoad (s : State) : Except AccessStop Memory → Session × LoadResult
  | .ok m => (.loading (s.setMem m), .ok)
  | .error (.outOfBounds l) => (.loading s, loadError (.outOfBounds l))
  | .error .misaligned => (.refused .misalignedData, loadError .misaligned)

/-- The host's `load(address, bytes)`: defined before the first step only (D14), not for zero bytes (D24). DESIGN CHOICE
(log entries 11 and 17): the spec says that the model refuses such a load and not what the core is then, and the model
ends the session as `refused`, so that nothing more of it can be stepped or read. -/
def Session.load (ses : Session) (addr : Word) (bytes : List Byte) : Session × LoadResult :=
  match ses with
  | .loading s =>
    if bytes = [] then (.refused .emptyLoad, .refused .emptyLoad)
    else Session.afterLoad s (loadBytes config s.mem addr bytes)
  | .started _ | .faulted _ => (.refused .loadAfterFirstStep, .refused .loadAfterFirstStep)
  | .refused r => (.refused r, .refused r)

/-! ## Inspection (10_state R40, 20_memory R75): it changes nothing, and there is nothing to read after a fault -/

/-- The state the host can inspect; none after a fault or a refusal. -/
def Session.state : Session → Option State
  | .loading s | .started s => some s
  | .faulted _ | .refused _ => none

def Session.readPc (ses : Session) : Option Word := ses.state.map (·.pc)

def Session.readX (ses : Session) (i : Reg) : Option Word := ses.state.map (·.getX i)

def Session.readCsr (ses : Session) (k : CsrIdx) : Option Word := ses.state.map (·.getCsr k)

/-- `read_mem(address, n)`: `MemRead` with its checks and no side effect. -/
def Session.readMem (ses : Session) (addr : Word) (w : Width) : Option (Except AccessStop Word) :=
  ses.state.map fun s => memRead config s.mem addr w

end Sys2Proof.Machine
end

