-- ==== Sys2Proof/Safety.lean ====
section
/-! DEFINITION. What claims are stated in: the invariant of the state, what a state leaves unchanged, the end of a run
(60_exceptions R279), and when a run is safe. -/

namespace Sys2Proof.Machine

/-! ## The invariant -/

/-- Memory and the CSR bank keep their canonical forms, the entry of `x0` holds 0 (10_state R25), and the run is not
Faulted, since a faulting step leaves no state (60_exceptions R264). -/
structure State.Inv (s : State) : Prop where
  mem_wf : Memory.wf s.mem
  csr_wf : CsrBank.wf s.csr
  x_zero : s.x[0] = 0#32
  not_faulted : s.run ≠ .faulted

/-! ## What changed and what did not, through the reads of the model -/

/-- Every register reads as before. -/
def SameRegs (s t : State) : Prop := ∀ r : Reg, t.getX r = s.getX r

/-- `x[rd]` reads `v` and every other register reads as before; for `rd = 0` nothing is written (10_state R25). -/
def RegWritten (s t : State) (rd : Reg) (v : Word) : Prop :=
  ∀ r : Reg, t.getX r = if r = rd ∧ r ≠ 0#5 then v else s.getX r

/-- Every CSR slot reads as before. -/
def SameCsrs (s t : State) : Prop := ∀ k : CsrIdx, t.getCsr k = s.getCsr k

/-- `csr[k]` reads `v` and every other slot reads as before. -/
def CsrWritten (s t : State) (k : CsrIdx) (v : Word) : Prop :=
  ∀ j : CsrIdx, t.getCsr j = if j = k then v else s.getCsr j

/-- Every byte of Memory reads as before. -/
def SameBytes (s t : State) : Prop := ∀ a : Nat, t.byteAt a = s.byteAt a

/-- Every byte outside the `n` bytes from `a` reads as before. -/
def SameBytesOutside (s t : State) (a n : Nat) : Prop :=
  ∀ b : Nat, ¬(a ≤ b ∧ b < a + n) → t.byteAt b = s.byteAt b

/-! ## How an instruction completes: its result and its frame in one -/

/-- `i` answers a next state with `x[rd]` written, `pc` at `p` and nothing else changed. -/
def WritesRegOnly (i : Instr) (s : State) (rd : Reg) (v p : Word) : Prop :=
  ∃ t, exec i s = .next t ∧ RegWritten s t rd v ∧ t.pc = p ∧ SameCsrs s t ∧ SameBytes s t ∧ t.run = s.run

/-- `i` answers a next state with `pc` at `p` and nothing else changed. -/
def MovesPcOnly (i : Instr) (s : State) (p : Word) : Prop :=
  ∃ t, exec i s = .next t ∧ t.pc = p ∧ SameRegs s t ∧ SameCsrs s t ∧ SameBytes s t ∧ t.run = s.run

/-- `i` answers a next state with the old `csr[k]` in `x[rd]`, `v` in `csr[k]`, `pc + 4`, and nothing else changed. -/
def ExchangesCsr (i : Instr) (s : State) (rd : Reg) (k : CsrIdx) (v : Word) : Prop :=
  ∃ t, exec i s = .next t ∧ RegWritten s t rd (s.getCsr k) ∧ CsrWritten s t k v ∧ t.pc = s.pc + 4#32 ∧
    SameBytes s t ∧ t.run = s.run

/-- `i` answers a next state with the bytes `bs` stored from address `a`, `pc + 4`, and nothing else changed. -/
def StoresOnly (i : Instr) (s : State) (a : Nat) (bs : List Byte) : Prop :=
  ∃ t, exec i s = .next t ∧ (∀ k < bs.length, t.byteAt (a + k) = bs.getD k 0#8) ∧
    SameBytesOutside s t a bs.length ∧ t.pc = s.pc + 4#32 ∧ SameRegs s t ∧ SameCsrs s t ∧ t.run = s.run

/-! ## Accesses -/

/-- The access of `n` bytes at `addr` happens: aligned unless `MISALIGNED = Bytewise`, and in the window. -/
abbrev Accessible (c : Config) (addr : Word) (n : Nat) : Prop :=
  (c.misaligned = .refuse → addr.toNat % n = 0) ∧ InBounds c addr n

/-- Where an access of `n` bytes at `addr` stops, and how (20_memory R52, R53, R62, R63). -/
def AccessStops {α : Type} (c : Config) (addr : Word) (n : Nat) (r : Except AccessStop α) : Prop :=
  (c.misaligned = .refuse → addr.toNat % n ≠ 0 → r = .error .misaligned) ∧
  ((c.misaligned = .refuse → addr.toNat % n = 0) → addr.toNat < c.dramBase.toNat →
    r = .error (.outOfBounds .bus)) ∧
  ((c.misaligned = .refuse → addr.toNat % n = 0) → c.dramBase.toNat ≤ addr.toNat →
    c.dramBase.toNat + c.dramSize < addr.toNat + n → r = .error (.outOfBounds .memory))

/-- Where the data access of `n` bytes at `a` that `i` makes stops, and how (43_load_store R191, R192). -/
def DataAccessStops (i : Instr) (s : State) (a : Word) (n : Nat) : Prop :=
  (config.misaligned = .refuse → a.toNat % n ≠ 0 → exec i s = .refused .misalignedData) ∧
  ((config.misaligned = .refuse → a.toNat % n = 0) → a.toNat < config.dramBase.toNat →
    exec i s = .fault (.dataOutOfBounds .bus)) ∧
  ((config.misaligned = .refuse → a.toNat % n = 0) → config.dramBase.toNat ≤ a.toNat →
    config.dramBase.toNat + config.dramSize < a.toNat + n → exec i s = .fault (.dataOutOfBounds .memory))

/-- The load `i` of `n` bytes at `a` into `rd`: it completes with `v` where the access happens, and stops elsewhere. -/
def LoadsOrStops (i : Instr) (s : State) (rd : Reg) (a : Word) (n : Nat) (v : Word) : Prop :=
  (Accessible config a n → WritesRegOnly i s rd v (s.pc + 4#32)) ∧ DataAccessStops i s a n

/-- The four bytes at `pc`, lowest address first (40_pipeline R113). -/
def fetchedBytes (s : State) : List Byte :=
  [s.byteAt s.pc.toNat, s.byteAt (s.pc.toNat + 1), s.byteAt (s.pc.toNat + 2), s.byteAt (s.pc.toNat + 3)]

/-- The unsigned value of the two bytes at `a` in a byte order (20_memory R58). -/
def halfValue (bo : ByteOrder) (m : Memory) (a : Nat) : Nat :=
  match bo with
  | .big => (SparseMap.get m a).toNat * 256 + (SparseMap.get m (a + 1)).toNat
  | .little => (SparseMap.get m (a + 1)).toNat * 256 + (SparseMap.get m a).toNat

/-- The unsigned value of the four bytes at `a` in a byte order (20_memory R58). -/
def wordValue (bo : ByteOrder) (m : Memory) (a : Nat) : Nat :=
  match bo with
  | .big => halfValue .big m a * 65536 + halfValue .big m (a + 2)
  | .little => halfValue .little m (a + 2) * 65536 + halfValue .little m a

/-- The unsigned value of a read of a width (20_memory R58). -/
def readValue (bo : ByteOrder) (m : Memory) (a : Nat) : Width → Nat
  | .byte => (SparseMap.get m a).toNat
  | .half => halfValue bo m a
  | .word => wordValue bo m a

/-- Byte `k` of a value, byte 0 the least significant. -/
def byteOf (v : Word) (k : Nat) : Byte := BitVec.ofNat 8 (v.toNat / 256 ^ k)

/-- The bytes of a halfword or word from the lowest address upwards, given least significant first. -/
def inOrder (bo : ByteOrder) (leastFirst : List Byte) : List Byte :=
  match bo with
  | .big => leastFirst.reverse
  | .little => leastFirst

/-- The bytes that a write of a width stores, from the lowest address upwards (20_memory R59). -/
def storedBytes (bo : ByteOrder) (v : Word) : Width → List Byte
  | .byte => [byteOf v 0]
  | .half => inOrder bo [byteOf v 0, byteOf v 1]
  | .word => inOrder bo [byteOf v 0, byteOf v 1, byteOf v 2, byteOf v 3]

/-- The store `i` of a width of `v` at `a`: it completes where the access happens, and stops elsewhere. -/
def StoresOrStops (i : Instr) (s : State) (a : Word) (w : Width) (v : Word) : Prop :=
  (Accessible config a w.bytes → StoresOnly i s a.toNat (storedBytes config.byteOrder v w)) ∧
    DataAccessStops i s a w.bytes

/-- Every bit of `v` is `f` of the bits of `a` and `b` at its place. -/
def Bitwise (f : Bool → Bool → Bool) (a b v : Word) : Prop :=
  ∀ i < 32, v.getLsbD i = f (a.getLsbD i) (b.getLsbD i)

/-! ## Kinds of instructions -/

/-- The destination register, of the instructions that write one (40_pipeline R120). -/
def destReg : Instr → Option Reg
  | .lui rd _ | .auipc rd _ | .jal rd _ | .jalr rd _ _
  | .lb rd _ _ | .lh rd _ _ | .lw rd _ _ | .lbu rd _ _ | .lhu rd _ _
  | .addi rd _ _ | .slti rd _ _ | .sltiu rd _ _ | .xori rd _ _ | .ori rd _ _ | .andi rd _ _
  | .slli rd _ _ | .srli rd _ _ | .srai rd _ _
  | .add rd _ _ | .sub rd _ _ | .sll rd _ _ | .slt rd _ _ | .sltu rd _ _ | .xor rd _ _ | .srl rd _ _
  | .sra rd _ _ | .or rd _ _ | .and rd _ _
  | .csrrw rd _ _ | .csrrs rd _ _ | .csrrc rd _ _ | .csrrwi rd _ _ | .csrrsi rd _ _ | .csrrci rd _ _ => some rd
  | .beq _ _ _ | .bne _ _ _ | .blt _ _ _ | .bge _ _ _ | .bltu _ _ _ | .bgeu _ _ _
  | .sb _ _ _ | .sh _ _ _ | .sw _ _ _ | .fence _ _ _ _ _ | .ecall | .mret => none

/-- The CSR slot that an instruction writes (10_state R33). -/
def destCsr : Instr → Option CsrIdx
  | .csrrw _ _ k | .csrrs _ _ k | .csrrc _ _ k | .csrrwi _ _ k | .csrrsi _ _ k | .csrrci _ _ k => some k
  | .ecall => some config.trapCauseCsr
  | .lui _ _ | .auipc _ _ | .jal _ _ | .jalr _ _ _
  | .beq _ _ _ | .bne _ _ _ | .blt _ _ _ | .bge _ _ _ | .bltu _ _ _ | .bgeu _ _ _
  | .lb _ _ _ | .lh _ _ _ | .lw _ _ _ | .lbu _ _ _ | .lhu _ _ _ | .sb _ _ _ | .sh _ _ _ | .sw _ _ _
  | .addi _ _ _ | .slti _ _ _ | .sltiu _ _ _ | .xori _ _ _ | .ori _ _ _ | .andi _ _ _
  | .slli _ _ _ | .srli _ _ _ | .srai _ _ _
  | .add _ _ _ | .sub _ _ _ | .sll _ _ _ | .slt _ _ _ | .sltu _ _ _ | .xor _ _ _ | .srl _ _ _ | .sra _ _ _
  | .or _ _ _ | .and _ _ _ | .fence _ _ _ _ _ | .mret => none

/-- The base register, offset and number of bytes of an instruction's data access (20_memory R64). -/
def dataAccess : Instr → Option (Reg × BitVec 12 × Nat)
  | .lb _ rs1 imm | .lbu _ rs1 imm | .sb rs1 _ imm => some (rs1, imm, 1)
  | .lh _ rs1 imm | .lhu _ rs1 imm | .sh rs1 _ imm => some (rs1, imm, 2)
  | .lw _ rs1 imm | .sw rs1 _ imm => some (rs1, imm, 4)
  | .lui _ _ | .auipc _ _ | .jal _ _ | .jalr _ _ _
  | .beq _ _ _ | .bne _ _ _ | .blt _ _ _ | .bge _ _ _ | .bltu _ _ _ | .bgeu _ _ _
  | .addi _ _ _ | .slti _ _ _ | .sltiu _ _ _ | .xori _ _ _ | .ori _ _ _ | .andi _ _ _
  | .slli _ _ _ | .srli _ _ _ | .srai _ _ _
  | .add _ _ _ | .sub _ _ _ | .sll _ _ _ | .slt _ _ _ | .sltu _ _ _ | .xor _ _ _ | .srl _ _ _ | .sra _ _ _
  | .or _ _ _ | .and _ _ _ | .fence _ _ _ _ _
  | .csrrw _ _ _ | .csrrs _ _ _ | .csrrc _ _ _ | .csrrwi _ _ _ | .csrrsi _ _ _ | .csrrci _ _ _
  | .ecall | .mret => none

/-- The instruction is a store. -/
def isStore (i : Instr) : Bool := (dataAccess i).isSome && (destReg i).isNone

/-- The instruction always goes on at `pc + 4`: no branch, no jump, not ECALL (40_pipeline R122). -/
def isSequential : Instr → Bool
  | .beq _ _ _ | .bne _ _ _ | .blt _ _ _ | .bge _ _ _ | .bltu _ _ _ | .bgeu _ _ _
  | .jal _ _ | .jalr _ _ _ | .ecall => false
  | .lui _ _ | .auipc _ _
  | .lb _ _ _ | .lh _ _ _ | .lw _ _ _ | .lbu _ _ _ | .lhu _ _ _ | .sb _ _ _ | .sh _ _ _ | .sw _ _ _
  | .addi _ _ _ | .slti _ _ _ | .sltiu _ _ _ | .xori _ _ _ | .ori _ _ _ | .andi _ _ _
  | .slli _ _ _ | .srli _ _ _ | .srai _ _ _
  | .add _ _ _ | .sub _ _ _ | .sll _ _ _ | .slt _ _ _ | .sltu _ _ _ | .xor _ _ _ | .srl _ _ _ | .sra _ _ _
  | .or _ _ _ | .and _ _ _ | .fence _ _ _ _ _
  | .csrrw _ _ _ | .csrrs _ _ _ | .csrrc _ _ _ | .csrrwi _ _ _ | .csrrsi _ _ _ | .csrrci _ _ _
  | .mret => true

/-- Every word that a row of the opcode table matches decodes to the instruction `f` reads from its fields. -/
def RowDecodes (mask pattern : Word) (f : Word → Instr) : Prop :=
  ∀ w : Word, w &&& mask = pattern → decodeWord w = .ok (f w)

/-- The word is no instruction (30_encoding R97). -/
def Unmatched (w : Word) : Prop := decodeWord w = .error .unmatchedOpcode

/-- An outcome with another CSR bank put into its next state. -/
def withCsr (b : CsrBank) : Outcome → Outcome
  | .next t => .next { t with csr := b }
  | .fault f => .fault f
  | .refused r => .refused r

/-- The instructions of a list, one after another. -/
def execAll : List Instr → State → Outcome
  | [], s => .next s
  | i :: rest, s =>
    match exec i s with
    | .next t => execAll rest t
    | .fault f => .fault f
    | .refused r => .refused r

/-! ## Runs -/

/-- How a run ends (R279): its first Halted, its first error, or its first refusal. -/
inductive RunEnd where
  | halted (s : State)
  | error (f : Fault)
  | refused (r : Refusal)
deriving DecidableEq, Repr

/-- The end of the run from `s`, if it comes within `n` steps. -/
def runEnd : Nat → State → Option RunEnd
  | 0, _ => none
  | n + 1, s =>
    match step s with
    | .next t => if t.run = .halted then some (.halted t) else runEnd n t
    | .fault f => some (.error f)
    | .refused r => some (.refused r)

/-- A run that meets no error and no refusal within `n` steps. -/
def SafeFor (n : Nat) (s : State) : Prop :=
  match runEnd n s with
  | none | some (.halted _) => True
  | some (.error _) | some (.refused _) => False

/-- The states a run can be in: those the host's loads make of the reset state, and what steps make of them. -/
inductive Reachable : State → Prop where
  | reset : Reachable State.reset
  | load {s : State} {addr : Word} {bytes : List Byte} {m : Memory} :
      Reachable s → loadBytes config s.mem addr bytes = .ok m → Reachable (s.setMem m)
  | step {s t : State} : Reachable s → step s = .next t → Reachable t

end Sys2Proof.Machine
end

