-- ==== Sys2Proof/Certificates/Slice0/Obligations.lean ====
section
/-! DEFINITION. The statements for the provers: the rules of spec/ as claims about the model. OBLIGATIONS.json gives each
its title, its rules and its quote. A register, a byte, a CSR is spoken of through the read of the model (`getX`,
`byteAt`, `getCsr`); the frames are those of Safety.lean. -/

section
open Sys2Proof Sys2Proof.Machine

/-! ## State and its accessors -/

/-- R25, R26: `x0` reads as zero and discards writes, every other register reads what was written, and a write of one
register touches no other. -/
def Obligations.RegisterFileReadAfterWrite : Prop :=
  ∀ (s : State) (i r : Reg) (v : Word),
    s.getX 0#5 = 0#32 ∧ s.setX 0#5 v = s ∧ (i ≠ 0#5 → (s.setX i v).getX i = v) ∧
    (r ≠ i → (s.setX i v).getX r = s.getX r)

/-- R31: a CSR slot is plain storage, and a write of it has no side effect. -/
def Obligations.CsrReadAfterWrite : Prop :=
  ∀ (s : State) (k j : CsrIdx) (v : Word),
    (s.setCsr k v).getCsr k = v ∧ (j ≠ k → (s.setCsr k v).getCsr j = s.getCsr j) ∧
    (s.setCsr k v).pc = s.pc ∧ (s.setCsr k v).x = s.x ∧ (s.setCsr k v).run = s.run ∧ (s.setCsr k v).mem = s.mem

/-- R12: the low bits are kept, the upper ones are copies of the top one or 0; and the law of a 12-bit immediate. -/
def Obligations.SignAndZeroExtension : Prop :=
  (∀ (v : Word), ∀ i < 32,
    (sext8 v).getLsbD i = v.getLsbD (min i 7) ∧ (sext16 v).getLsbD i = v.getLsbD (min i 15) ∧
    (zext8 v).getLsbD i = (decide (i < 8) && v.getLsbD i) ∧ (zext16 v).getLsbD i = (decide (i < 16) && v.getLsbD i)) ∧
  (∀ (a : BitVec 12) (b : BitVec 13) (j : BitVec 21) (z : BitVec 5), ∀ i < 32,
    (sextImm12 a).getLsbD i = a.getLsbD (min i 11) ∧ (sextImm13 b).getLsbD i = b.getLsbD (min i 12) ∧
    (sextImm21 j).getLsbD i = j.getLsbD (min i 20) ∧ (zextImm5 z).getLsbD i = (decide (i < 5) && z.getLsbD i)) ∧
  ∀ a : BitVec 12, (sextImm12 a).toInt = if a.getLsbD 11 then (a.toNat : Int) - 4096 else a.toNat

/-- R290, R291, R294: what the spec gives for reset. -/
def Obligations.ResetValues : Prop :=
  (∀ a : Nat, State.reset.byteAt a = 0#8) ∧ (∀ r : Reg, r ≠ 2#5 → State.reset.getX r = 0#32) ∧
  State.reset.getX 2#5 = BitVec.ofNat 32 (config.dramBase.toNat + config.dramSize) ∧
  State.reset.getX 2#5 = 0x80100000#32 ∧ (∀ s : State, s.getX 0#5 = 0#32) ∧ State.reset.run = .running

/-- The spec's decisions D4 and D5 (log entries 3 and 4): `pc` and the CSRs at reset, and so where an ECALL at reset
goes. -/
def Obligations.ResetPcAndCsrs : Prop :=
  State.reset.pc = config.dramBase ∧ (∀ k : CsrIdx, State.reset.getCsr k = 0#32) ∧
  ∃ t, exec .ecall State.reset = .next t ∧ t.pc = 0#32 ∧ t.run = .halted

/-- The reset state of every configuration: Memory zero, the stack pointer at the top of memory, every CSR slot at
`CSR_RESET`, `pc` at `RESET_PC`; and `State.reset` is that state at the spec's configuration. -/
def Obligations.ResetOfAnyConfiguration : Prop :=
  (∀ c : Config, (∀ a : Nat, (resetOf c).byteAt a = 0#8) ∧
    (∀ r : Reg, (resetOf c).getX r = if r = 2#5 then BitVec.ofNat 32 (c.dramBase.toNat + c.dramSize) else 0#32) ∧
    (∀ k : CsrIdx, (resetOf c).getCsr k = c.csrReset k) ∧ (resetOf c).pc = c.resetPc ∧ (resetOf c).run = .running) ∧
  resetOf config = State.reset

/-! ## Memory -/

/-- R52, R53, R58: what a read answers, in either byte order, and where it stops. -/
def Obligations.MemReadValue : Prop :=
  ∀ (c : Config) (m : Memory) (addr : Word) (w : Width),
    (Accessible c addr w.bytes →
      ∃ v, memRead c m addr w = .ok v ∧ v.toNat = readValue c.byteOrder m addr.toNat w) ∧
    AccessStops c addr w.bytes (memRead c m addr w)

/-- R59: which bytes a write changes and to what, in either byte order, and where it stops. -/
def Obligations.MemWriteBytes : Prop :=
  ∀ (c : Config) (m : Memory) (addr : Word) (w : Width) (v : Word),
    (Accessible c addr w.bytes → ∃ m', memWrite c m addr w v = .ok m' ∧
      (∀ k < w.bytes, SparseMap.get m' (addr.toNat + k) = (storedBytes c.byteOrder v w).getD k 0#8) ∧
      ∀ b, ¬(addr.toNat ≤ b ∧ b < addr.toNat + w.bytes) → SparseMap.get m' b = SparseMap.get m b) ∧
    AccessStops c addr w.bytes (memWrite c m addr w v)

/-- R74: the round trip, at every width and in either byte order. -/
def Obligations.MemoryRoundTrip : Prop :=
  ∀ (c : Config) (m : Memory) (addr : Word) (w : Width) (v : Word), Accessible c addr w.bytes →
    ∃ m' r, memWrite c m addr w v = .ok m' ∧ memRead c m' addr w = .ok r ∧ r.toNat = v.toNat % 256 ^ w.bytes

/-! ## Encoding -/

/-- R82 to R88: where every bit of every immediate stands in the word, and what the extended immediate is. -/
def Obligations.ImmediateLayouts : Prop :=
  ∀ w : Word,
    ((∀ i < 12, (immIRaw w).getLsbD i = w.getLsbD (i + 20)) ∧ (sextImm12 (immIRaw w)).toInt = (immIRaw w).toInt ∧
      shiftAmount (sextImm12 (immIRaw w)) = w.toNat / 2 ^ 20 % 32) ∧
    ((∀ i < 5, (immSRaw w).getLsbD i = w.getLsbD (i + 7)) ∧
      (∀ i < 12, 5 ≤ i → (immSRaw w).getLsbD i = w.getLsbD (i + 20)) ∧
      (sextImm12 (immSRaw w)).toInt = (immSRaw w).toInt) ∧
    ((immBRaw w).getLsbD 12 = w.getLsbD 31 ∧ (immBRaw w).getLsbD 11 = w.getLsbD 7 ∧
      (∀ i < 11, 5 ≤ i → (immBRaw w).getLsbD i = w.getLsbD (i + 20)) ∧
      (∀ i < 5, 1 ≤ i → (immBRaw w).getLsbD i = w.getLsbD (i + 7)) ∧ (immBRaw w).getLsbD 0 = false ∧
      (sextImm13 (immBRaw w)).toInt = (immBRaw w).toInt ∧ -4096 ≤ (immBRaw w).toInt ∧ (immBRaw w).toInt ≤ 4094 ∧
      (immBRaw w).toInt % 2 = 0) ∧
    ((immJRaw w).getLsbD 20 = w.getLsbD 31 ∧ (∀ i < 20, 12 ≤ i → (immJRaw w).getLsbD i = w.getLsbD i) ∧
      (immJRaw w).getLsbD 11 = w.getLsbD 20 ∧ (∀ i < 11, 1 ≤ i → (immJRaw w).getLsbD i = w.getLsbD (i + 20)) ∧
      (immJRaw w).getLsbD 0 = false ∧ (sextImm21 (immJRaw w)).toInt = (immJRaw w).toInt ∧
      -1048576 ≤ (immJRaw w).toInt ∧ (immJRaw w).toInt ≤ 1048574 ∧ (immJRaw w).toInt % 2 = 0) ∧
    ((∀ i < 20, (immURaw w).getLsbD i = w.getLsbD (i + 12)) ∧ shiftImm20 (immURaw w) = w &&& 0xFFFFF000#32) ∧
    (zextImm5 (fRs1 w)).toNat = w.toNat / 2 ^ 15 % 32 ∧
    (fCsr w).toNat = w.toNat / 2 ^ 20

/-- The decoder reads every well-formed instruction back from its word: no bit of an encoding is dropped. -/
def Obligations.DecodeOfEncode : Prop := ∀ i : Instr, i.wf = true → decodeWord (encode i) = .ok i

/-- Every word that decodes decodes to a well-formed instruction, and is that instruction's one encoding. -/
def Obligations.EncodeOfDecode : Prop := ∀ (w : Word) (i : Instr), decodeWord w = .ok i → i.wf = true ∧ encode i = w

/-- R96: the decoder and the table of masks classify alike, on every word, and no two rows of the table match one
word. -/
def Obligations.OpcodeTableAgreesWithDecoder : Prop :=
  (∀ w : Word, classify w = none ↔ Unmatched w) ∧
  (∀ (w : Word) (i : Instr), decodeWord w = .ok i → classify w = some i.mnemonic) ∧
  opcodeTable.Pairwise fun r q => ∀ w : Word, r.matchesWord w = true → q.matchesWord w = false

/-- R80, R91, R93 to R95, R97: the unmatched words by class, and the words that the spec names. -/
def Obligations.UnmatchedWords : Prop :=
  (∀ w : Word, w.extractLsb' 0 2 ≠ 3#2 → Unmatched w) ∧
  (∀ w : Word, fOpcode w ∉ [0x37#7, 0x17#7, 0x6F#7, 0x67#7, 0x63#7, 0x03#7, 0x23#7, 0x13#7, 0x33#7, 0x0F#7, 0x73#7] →
    Unmatched w) ∧
  (∀ w : Word, fOpcode w = 0x67#7 → fFunct3 w ≠ 0#3 → Unmatched w) ∧
  (∀ w : Word, fOpcode w = 0x63#7 → fFunct3 w ∈ [2#3, 3#3] → Unmatched w) ∧
  (∀ w : Word, fOpcode w = 0x03#7 → fFunct3 w ∈ [3#3, 6#3, 7#3] → Unmatched w) ∧
  (∀ w : Word, fOpcode w = 0x23#7 → fFunct3 w ∈ [3#3, 4#3, 5#3, 6#3, 7#3] → Unmatched w) ∧
  (∀ w : Word, fOpcode w = 0x0F#7 → fFunct3 w ≠ 0#3 → Unmatched w) ∧
  (∀ w : Word, fOpcode w = 0x33#7 → fFunct7 w ∉ [0x00#7, 0x20#7] → Unmatched w) ∧
  (∀ w : Word, fOpcode w = 0x33#7 → fFunct7 w = 0x20#7 → fFunct3 w ∉ [0#3, 5#3] → Unmatched w) ∧
  (∀ w : Word, fOpcode w = 0x13#7 → fFunct3 w = 1#3 → fFunct7 w ≠ 0x00#7 → Unmatched w) ∧
  (∀ w : Word, fOpcode w = 0x13#7 → fFunct3 w = 5#3 → fFunct7 w ∉ [0x00#7, 0x20#7] → Unmatched w) ∧
  (∀ w : Word, fOpcode w = 0x73#7 → fFunct3 w = 4#3 → Unmatched w) ∧
  (∀ w : Word, fOpcode w = 0x73#7 → fFunct3 w = 0#3 → w ≠ 0x00000073#32 → w ≠ 0x30200073#32 → Unmatched w) ∧
  (∀ w ∈ [0x00000000#32, 0xFFFFFFFF#32, 0x00100073#32, 0x10200073#32, 0x10500073#32, 0x0000100F#32], Unmatched w)

/-- R101: words written out from the encodings, and the instructions they stand for. A sanity statement. -/
def Obligations.WorkedEncodings : Prop :=
  decodeWord 0x00100093#32 = .ok (.addi 1 0 1) ∧
  decodeWord 0xFFF00093#32 = .ok (.addi 1 0 0xFFF) ∧
  decodeWord 0xFE212E23#32 = .ok (.sw 2 2 0xFFC) ∧
  decodeWord 0xFFC12283#32 = .ok (.lw 5 2 0xFFC) ∧
  decodeWord 0x7E320FA3#32 = .ok (.sb 4 3 0x7FF) ∧
  decodeWord 0x00208463#32 = .ok (.beq 1 2 8) ∧
  decodeWord 0xFE000CE3#32 = .ok (.beq 0 0 (BitVec.ofInt 13 (-8))) ∧
  decodeWord 0x80209063#32 = .ok (.bne 1 2 (BitVec.ofInt 13 (-4096))) ∧
  decodeWord 0x001000EF#32 = .ok (.jal 1 2048) ∧
  decodeWord 0xFFDFF06F#32 = .ok (.jal 0 (BitVec.ofInt 21 (-4))) ∧
  decodeWord 0x8000006F#32 = .ok (.jal 0 (BitVec.ofInt 21 (-1048576))) ∧
  decodeWord 0x123452B7#32 = .ok (.lui 5 0x12345) ∧
  decodeWord 0x41F15093#32 = .ok (.srai 1 2 31) ∧
  decodeWord 0x305110F3#32 = .ok (.csrrw 1 2 0x305) ∧
  decodeWord 0x342FE1F3#32 = .ok (.csrrsi 3 31 0x342)

/-! ## The step -/

/-- Where the four bytes at `pc` decode to an instruction, the step is that instruction's meaning and nothing else; and
a word put there by `withFetchWord` is what the step runs. -/
def Obligations.StepRunsDecodedInstruction : Prop :=
  (∀ (s : State) (i : Instr), s.run = .running → Accessible config s.pc 4 →
    decodeBytes config.byteOrder (fetchedBytes s) = .ok (i, []) → step s = exec i s) ∧
  ∀ (s : State) (i : Instr), s.run = .running → Accessible config s.pc 4 → i.wf = true →
    step (s.withFetchWord 32 (encode i).toNat) = exec i (s.withFetchWord 32 (encode i).toNat)

/-- R266: the stop that comes first in step order wins. -/
def Obligations.StepStopPriority : Prop :=
  ∀ s : State, s.run = .running →
    (config.misaligned = .refuse → s.pc.toNat % 4 ≠ 0 → step s = .refused .misalignedFetch) ∧
    ((config.misaligned = .refuse → s.pc.toNat % 4 = 0) → s.pc.toNat < config.dramBase.toNat →
      step s = .fault (.fetchOutOfBounds .bus)) ∧
    ((config.misaligned = .refuse → s.pc.toNat % 4 = 0) → config.dramBase.toNat ≤ s.pc.toNat →
      config.dramBase.toNat + config.dramSize < s.pc.toNat + 4 → step s = .fault (.fetchOutOfBounds .memory)) ∧
    (Accessible config s.pc 4 → decodeBytes config.byteOrder (fetchedBytes s) = .error .unmatchedOpcode →
      step s = .fault .unmatchedOpcode) ∧
    ∀ (i : Instr) (base : Reg) (off : BitVec 12) (n : Nat), Accessible config s.pc 4 →
      decodeBytes config.byteOrder (fetchedBytes s) = .ok (i, []) → dataAccess i = some (base, off, n) →
      step s = exec i s ∧ DataAccessStops i s (effectiveAddress s base off) n

/-- R261: a step faults exactly where the table says, with the error of the table; so does the host's load. -/
def Obligations.FaultsExactlyWhereListed : Prop :=
  (∀ (s : State) (f : Fault), step s = .fault f ↔
    s.run = .running ∧ (config.misaligned = .refuse → s.pc.toNat % 4 = 0) ∧
    ((s.pc.toNat < config.dramBase.toNat ∧ f = .fetchOutOfBounds .bus) ∨
     (config.dramBase.toNat ≤ s.pc.toNat ∧ config.dramBase.toNat + config.dramSize < s.pc.toNat + 4 ∧
       f = .fetchOutOfBounds .memory) ∨
     (InBounds config s.pc 4 ∧ decodeBytes config.byteOrder (fetchedBytes s) = .error .unmatchedOpcode ∧
       f = .unmatchedOpcode) ∨
     (InBounds config s.pc 4 ∧ ∃ (i : Instr) (base : Reg) (off : BitVec 12) (n : Nat),
       decodeBytes config.byteOrder (fetchedBytes s) = .ok (i, []) ∧ dataAccess i = some (base, off, n) ∧
       (config.misaligned = .refuse → (effectiveAddress s base off).toNat % n = 0) ∧
       (((effectiveAddress s base off).toNat < config.dramBase.toNat ∧ f = .dataOutOfBounds .bus) ∨
        (config.dramBase.toNat ≤ (effectiveAddress s base off).toNat ∧
          config.dramBase.toNat + config.dramSize < (effectiveAddress s base off).toNat + n ∧
          f = .dataOutOfBounds .memory))))) ∧
  (∀ (m : Memory) (addr : Word) (bytes : List Byte) (e : AccessStop), loadBytes config m addr bytes = .error e ↔
    (addr.toNat < config.dramBase.toNat ∧ e = .outOfBounds .bus) ∨
    (config.dramBase.toNat ≤ addr.toNat ∧ config.dramBase.toNat + config.dramSize < addr.toNat + bytes.length ∧
      e = .outOfBounds .memory)) ∧
  (∀ l : Layer, faultRecord (.fetchOutOfBounds l) = ⟨.fetch, some l, .addressOutOfBounds⟩ ∧
    faultRecord (.dataOutOfBounds l) = ⟨.writeback, some l, .addressOutOfBounds⟩ ∧
    loadError (.outOfBounds l) = .error ⟨.load, some l, .addressOutOfBounds⟩) ∧
  faultRecord .unmatchedOpcode = ⟨.decode, none, .unmatchedOpcode⟩

/-- R112 to R123: the step taken stage by stage through the decoded bundle and the execute result is the step of the
model. -/
def Obligations.StagedPipelineEqualsStep : Prop := ∀ s : State, pipelineStep config s = step s

/-- R62, R63, R265: under `MISALIGNED = Bytewise` no running step is refused, in any configuration. -/
def Obligations.BytewiseRefusesNothing : Prop :=
  ∀ (c : Config) (s : State) (r : Refusal), c.misaligned = .bytewise → s.run = .running →
    pipelineStep c s ≠ .refused r

/-! ## Integer ALU -/

/-- R141, R142. -/
def Obligations.AddAndSub : Prop :=
  RowDecodes 0xFE00707F#32 0x00000033#32 (fun w => .add (fRd w) (fRs1 w) (fRs2 w)) ∧
  RowDecodes 0xFE00707F#32 0x40000033#32 (fun w => .sub (fRd w) (fRs1 w) (fRs2 w)) ∧
  ∀ (s : State) (rd rs1 rs2 : Reg),
    WritesRegOnly (.add rd rs1 rs2) s rd (BitVec.ofNat 32 ((s.getX rs1).toNat + (s.getX rs2).toNat)) (s.pc + 4#32) ∧
    WritesRegOnly (.sub rd rs1 rs2) s rd (BitVec.ofInt 32 ((s.getX rs1).toNat - (s.getX rs2).toNat)) (s.pc + 4#32)

/-- R143 to R145. -/
def Obligations.BitwiseRegisterForms : Prop :=
  RowDecodes 0xFE00707F#32 0x00007033#32 (fun w => .and (fRd w) (fRs1 w) (fRs2 w)) ∧
  RowDecodes 0xFE00707F#32 0x00006033#32 (fun w => .or (fRd w) (fRs1 w) (fRs2 w)) ∧
  RowDecodes 0xFE00707F#32 0x00004033#32 (fun w => .xor (fRd w) (fRs1 w) (fRs2 w)) ∧
  ∀ (s : State) (rd rs1 rs2 : Reg),
    (∃ v, Bitwise and (s.getX rs1) (s.getX rs2) v ∧ WritesRegOnly (.and rd rs1 rs2) s rd v (s.pc + 4#32)) ∧
    (∃ v, Bitwise or (s.getX rs1) (s.getX rs2) v ∧ WritesRegOnly (.or rd rs1 rs2) s rd v (s.pc + 4#32)) ∧
    (∃ v, Bitwise xor (s.getX rs1) (s.getX rs2) v ∧ WritesRegOnly (.xor rd rs1 rs2) s rd v (s.pc + 4#32))

/-- R146 to R149. -/
def Obligations.ImmediateArithmetic : Prop :=
  RowDecodes 0x0000707F#32 0x00000013#32 (fun w => .addi (fRd w) (fRs1 w) (immIRaw w)) ∧
  RowDecodes 0x0000707F#32 0x00007013#32 (fun w => .andi (fRd w) (fRs1 w) (immIRaw w)) ∧
  RowDecodes 0x0000707F#32 0x00006013#32 (fun w => .ori (fRd w) (fRs1 w) (immIRaw w)) ∧
  RowDecodes 0x0000707F#32 0x00004013#32 (fun w => .xori (fRd w) (fRs1 w) (immIRaw w)) ∧
  ∀ (s : State) (rd rs1 : Reg) (imm : BitVec 12),
    WritesRegOnly (.addi rd rs1 imm) s rd (BitVec.ofInt 32 ((s.getX rs1).toNat + imm.toInt)) (s.pc + 4#32) ∧
    (∃ v, Bitwise and (s.getX rs1) (BitVec.ofInt 32 imm.toInt) v ∧
      WritesRegOnly (.andi rd rs1 imm) s rd v (s.pc + 4#32)) ∧
    (∃ v, Bitwise or (s.getX rs1) (BitVec.ofInt 32 imm.toInt) v ∧
      WritesRegOnly (.ori rd rs1 imm) s rd v (s.pc + 4#32)) ∧
    (∃ v, Bitwise xor (s.getX rs1) (BitVec.ofInt 32 imm.toInt) v ∧
      WritesRegOnly (.xori rd rs1 imm) s rd v (s.pc + 4#32))

/-- R150 to R152: only the low five bits of `x[rs2]` count. -/
def Obligations.RegisterShifts : Prop :=
  RowDecodes 0xFE00707F#32 0x00001033#32 (fun w => .sll (fRd w) (fRs1 w) (fRs2 w)) ∧
  RowDecodes 0xFE00707F#32 0x00005033#32 (fun w => .srl (fRd w) (fRs1 w) (fRs2 w)) ∧
  RowDecodes 0xFE00707F#32 0x40005033#32 (fun w => .sra (fRd w) (fRs1 w) (fRs2 w)) ∧
  ∀ (s : State) (rd rs1 rs2 : Reg),
    WritesRegOnly (.sll rd rs1 rs2) s rd
      (BitVec.ofNat 32 ((s.getX rs1).toNat * 2 ^ ((s.getX rs2).toNat % 32))) (s.pc + 4#32) ∧
    WritesRegOnly (.srl rd rs1 rs2) s rd
      (BitVec.ofNat 32 ((s.getX rs1).toNat / 2 ^ ((s.getX rs2).toNat % 32))) (s.pc + 4#32) ∧
    WritesRegOnly (.sra rd rs1 rs2) s rd
      (BitVec.ofInt 32 ((s.getX rs1).toInt / 2 ^ ((s.getX rs2).toNat % 32))) (s.pc + 4#32)

/-- R153 to R155. -/
def Obligations.ImmediateShifts : Prop :=
  RowDecodes 0xFE00707F#32 0x00001013#32 (fun w => .slli (fRd w) (fRs1 w) (fRs2 w)) ∧
  RowDecodes 0xFE00707F#32 0x00005013#32 (fun w => .srli (fRd w) (fRs1 w) (fRs2 w)) ∧
  RowDecodes 0xFE00707F#32 0x40005013#32 (fun w => .srai (fRd w) (fRs1 w) (fRs2 w)) ∧
  ∀ (s : State) (rd rs1 : Reg) (shamt : BitVec 5),
    WritesRegOnly (.slli rd rs1 shamt) s rd (BitVec.ofNat 32 ((s.getX rs1).toNat * 2 ^ shamt.toNat)) (s.pc + 4#32) ∧
    WritesRegOnly (.srli rd rs1 shamt) s rd (BitVec.ofNat 32 ((s.getX rs1).toNat / 2 ^ shamt.toNat)) (s.pc + 4#32) ∧
    WritesRegOnly (.srai rd rs1 shamt) s rd (BitVec.ofInt 32 ((s.getX rs1).toInt / 2 ^ shamt.toNat)) (s.pc + 4#32)

/-- R156 to R158. -/
def Obligations.Comparisons : Prop :=
  RowDecodes 0xFE00707F#32 0x00002033#32 (fun w => .slt (fRd w) (fRs1 w) (fRs2 w)) ∧
  RowDecodes 0xFE00707F#32 0x00003033#32 (fun w => .sltu (fRd w) (fRs1 w) (fRs2 w)) ∧
  RowDecodes 0x0000707F#32 0x00002013#32 (fun w => .slti (fRd w) (fRs1 w) (immIRaw w)) ∧
  ∀ (s : State) (rd rs1 rs2 : Reg) (imm : BitVec 12),
    WritesRegOnly (.slt rd rs1 rs2) s rd (if (s.getX rs1).toInt < (s.getX rs2).toInt then 1#32 else 0#32)
      (s.pc + 4#32) ∧
    WritesRegOnly (.sltu rd rs1 rs2) s rd (if (s.getX rs1).toNat < (s.getX rs2).toNat then 1#32 else 0#32)
      (s.pc + 4#32) ∧
    WritesRegOnly (.slti rd rs1 imm) s rd (if (s.getX rs1).toInt < imm.toInt then 1#32 else 0#32) (s.pc + 4#32)

/-- The spec's decision D22 (log entry 16): the immediate of SLTIU is sign-extended and then compared as unsigned. -/
def Obligations.SltiuComparison : Prop :=
  RowDecodes 0x0000707F#32 0x00003013#32 (fun w => .sltiu (fRd w) (fRs1 w) (immIRaw w)) ∧
  ∀ (s : State) (rd rs1 : Reg) (imm : BitVec 12),
    WritesRegOnly (.sltiu rd rs1 imm) s rd
      (if ((s.getX rs1).toNat : Int) < imm.toInt % 2 ^ 32 then 1#32 else 0#32) (s.pc + 4#32)

/-! ## Upper immediates, jumps and branches -/

/-- R220, R221. -/
def Obligations.UpperImmediates : Prop :=
  RowDecodes 0x0000007F#32 0x00000037#32 (fun w => .lui (fRd w) (immURaw w)) ∧
  RowDecodes 0x0000007F#32 0x00000017#32 (fun w => .auipc (fRd w) (immURaw w)) ∧
  ∀ (s : State) (rd : Reg) (imm : BitVec 20),
    WritesRegOnly (.lui rd imm) s rd (BitVec.ofNat 32 (imm.toNat * 4096)) (s.pc + 4#32) ∧
    WritesRegOnly (.auipc rd imm) s rd (BitVec.ofNat 32 (s.pc.toNat + imm.toNat * 4096)) (s.pc + 4#32)

/-- R210. -/
def Obligations.JumpAndLink : Prop :=
  RowDecodes 0x0000007F#32 0x0000006F#32 (fun w => .jal (fRd w) (immJRaw w)) ∧
  ∀ (s : State) (rd : Reg) (imm : BitVec 21),
    WritesRegOnly (.jal rd imm) s rd (s.pc + 4#32) (BitVec.ofInt 32 (s.pc.toNat + imm.toInt))

/-- R211: bit 0 of the sum is cleared and no other; the base is read before the link is written. -/
def Obligations.JumpAndLinkRegister : Prop :=
  RowDecodes 0x0000707F#32 0x00000067#32 (fun w => .jalr (fRd w) (fRs1 w) (immIRaw w)) ∧
  ∀ (s : State) (rd rs1 : Reg) (imm : BitVec 12),
    WritesRegOnly (.jalr rd rs1 imm) s rd (s.pc + 4#32)
      (BitVec.ofInt 32 (((s.getX rs1).toNat + imm.toInt) / 2 * 2))

/-- R170 to R172. -/
def Obligations.EqualityBranches : Prop :=
  RowDecodes 0x0000707F#32 0x00000063#32 (fun w => .beq (fRs1 w) (fRs2 w) (immBRaw w)) ∧
  RowDecodes 0x0000707F#32 0x00001063#32 (fun w => .bne (fRs1 w) (fRs2 w) (immBRaw w)) ∧
  ∀ (s : State) (rs1 rs2 : Reg) (imm : BitVec 13),
    MovesPcOnly (.beq rs1 rs2 imm) s
      (if s.getX rs1 = s.getX rs2 then BitVec.ofInt 32 (s.pc.toNat + imm.toInt) else s.pc + 4#32) ∧
    MovesPcOnly (.bne rs1 rs2 imm) s
      (if s.getX rs1 = s.getX rs2 then s.pc + 4#32 else BitVec.ofInt 32 (s.pc.toNat + imm.toInt))

/-- R173, R174. -/
def Obligations.SignedBranches : Prop :=
  RowDecodes 0x0000707F#32 0x00004063#32 (fun w => .blt (fRs1 w) (fRs2 w) (immBRaw w)) ∧
  RowDecodes 0x0000707F#32 0x00005063#32 (fun w => .bge (fRs1 w) (fRs2 w) (immBRaw w)) ∧
  ∀ (s : State) (rs1 rs2 : Reg) (imm : BitVec 13),
    MovesPcOnly (.blt rs1 rs2 imm) s
      (if (s.getX rs1).toInt < (s.getX rs2).toInt then BitVec.ofInt 32 (s.pc.toNat + imm.toInt) else s.pc + 4#32) ∧
    MovesPcOnly (.bge rs1 rs2 imm) s
      (if (s.getX rs2).toInt ≤ (s.getX rs1).toInt then BitVec.ofInt 32 (s.pc.toNat + imm.toInt) else s.pc + 4#32)

/-- R175, R176. -/
def Obligations.UnsignedBranches : Prop :=
  RowDecodes 0x0000707F#32 0x00006063#32 (fun w => .bltu (fRs1 w) (fRs2 w) (immBRaw w)) ∧
  RowDecodes 0x0000707F#32 0x00007063#32 (fun w => .bgeu (fRs1 w) (fRs2 w) (immBRaw w)) ∧
  ∀ (s : State) (rs1 rs2 : Reg) (imm : BitVec 13),
    MovesPcOnly (.bltu rs1 rs2 imm) s
      (if (s.getX rs1).toNat < (s.getX rs2).toNat then BitVec.ofInt 32 (s.pc.toNat + imm.toInt) else s.pc + 4#32) ∧
    MovesPcOnly (.bgeu rs1 rs2 imm) s
      (if (s.getX rs2).toNat ≤ (s.getX rs1).toNat then BitVec.ofInt 32 (s.pc.toNat + imm.toInt) else s.pc + 4#32)

/-! ## Loads and stores -/

/-- R190: base register plus sign-extended offset, modulo 2^32, and no instruction that accesses memory changes its
base register unless it is the destination; a store writes no register, and the next `pc` is `pc + 4`. -/
def Obligations.EffectiveAddress : Prop :=
  (∀ (s : State) (rs1 : Reg) (imm : BitVec 12),
    effectiveAddress s rs1 imm = BitVec.ofInt 32 ((s.getX rs1).toNat + imm.toInt)) ∧
  ∀ (i : Instr) (s t : State) (base : Reg) (off : BitVec 12) (n : Nat), dataAccess i = some (base, off, n) →
    exec i s = .next t → (∀ r, destReg i ≠ some r → t.getX r = s.getX r) ∧ (isStore i = true → destReg i = none) ∧
      t.pc = s.pc + 4#32

/-- R193, R196. -/
def Obligations.ByteLoads : Prop :=
  RowDecodes 0x0000707F#32 0x00000003#32 (fun w => .lb (fRd w) (fRs1 w) (immIRaw w)) ∧
  RowDecodes 0x0000707F#32 0x00004003#32 (fun w => .lbu (fRd w) (fRs1 w) (immIRaw w)) ∧
  ∀ (s : State) (rd rs1 : Reg) (imm : BitVec 12) (a : Word),
    a = BitVec.ofInt 32 ((s.getX rs1).toNat + imm.toInt) →
    LoadsOrStops (.lb rd rs1 imm) s rd a 1 (BitVec.ofInt 32 (s.byteAt a.toNat).toInt) ∧
    LoadsOrStops (.lbu rd rs1 imm) s rd a 1 (BitVec.ofNat 32 (s.byteAt a.toNat).toNat)

/-- R194, R197. -/
def Obligations.HalfwordLoads : Prop :=
  RowDecodes 0x0000707F#32 0x00001003#32 (fun w => .lh (fRd w) (fRs1 w) (immIRaw w)) ∧
  RowDecodes 0x0000707F#32 0x00005003#32 (fun w => .lhu (fRd w) (fRs1 w) (immIRaw w)) ∧
  ∀ (s : State) (rd rs1 : Reg) (imm : BitVec 12) (a : Word),
    a = BitVec.ofInt 32 ((s.getX rs1).toNat + imm.toInt) →
    LoadsOrStops (.lh rd rs1 imm) s rd a 2
      (BitVec.ofInt 32 (BitVec.ofNat 16 (halfValue config.byteOrder s.mem a.toNat)).toInt) ∧
    LoadsOrStops (.lhu rd rs1 imm) s rd a 2 (BitVec.ofNat 32 (halfValue config.byteOrder s.mem a.toNat))

/-- R195. -/
def Obligations.WordLoad : Prop :=
  RowDecodes 0x0000707F#32 0x00002003#32 (fun w => .lw (fRd w) (fRs1 w) (immIRaw w)) ∧
  ∀ (s : State) (rd rs1 : Reg) (imm : BitVec 12) (a : Word),
    a = BitVec.ofInt 32 ((s.getX rs1).toNat + imm.toInt) →
    LoadsOrStops (.lw rd rs1 imm) s rd a 4 (BitVec.ofNat 32 (wordValue config.byteOrder s.mem a.toNat))

/-- R198. -/
def Obligations.ByteStore : Prop :=
  RowDecodes 0x0000707F#32 0x00000023#32 (fun w => .sb (fRs1 w) (fRs2 w) (immSRaw w)) ∧
  ∀ (s : State) (rs1 rs2 : Reg) (imm : BitVec 12) (a : Word),
    a = BitVec.ofInt 32 ((s.getX rs1).toNat + imm.toInt) →
    StoresOrStops (.sb rs1 rs2 imm) s a .byte (s.getX rs2)

/-- R199. -/
def Obligations.HalfwordStore : Prop :=
  RowDecodes 0x0000707F#32 0x00001023#32 (fun w => .sh (fRs1 w) (fRs2 w) (immSRaw w)) ∧
  ∀ (s : State) (rs1 rs2 : Reg) (imm : BitVec 12) (a : Word),
    a = BitVec.ofInt 32 ((s.getX rs1).toNat + imm.toInt) →
    StoresOrStops (.sh rs1 rs2 imm) s a .half (s.getX rs2)

/-- R200. -/
def Obligations.WordStore : Prop :=
  RowDecodes 0x0000707F#32 0x00002023#32 (fun w => .sw (fRs1 w) (fRs2 w) (immSRaw w)) ∧
  ∀ (s : State) (rs1 rs2 : Reg) (imm : BitVec 12) (a : Word),
    a = BitVec.ofInt 32 ((s.getX rs1).toNat + imm.toInt) →
    StoresOrStops (.sw rs1 rs2 imm) s a .word (s.getX rs2)

/-- R201: a store and then a load of the same width at the same address, whatever registers and offsets give it. -/
def Obligations.StoreThenLoad : Prop :=
  ∀ (s : State) (b b' rd src : Reg) (off off' : BitVec 12) (a v : Word),
    a = effectiveAddress s b off → a = effectiveAddress s b' off' → v = s.getX src →
    (Accessible config a 1 → ∃ t, exec (.sb b src off) s = .next t ∧
      (∃ u, exec (.lb rd b' off') t = .next u ∧ RegWritten t u rd (sext8 v)) ∧
      ∃ u, exec (.lbu rd b' off') t = .next u ∧ RegWritten t u rd (zext8 v)) ∧
    (Accessible config a 2 → ∃ t, exec (.sh b src off) s = .next t ∧
      (∃ u, exec (.lh rd b' off') t = .next u ∧ RegWritten t u rd (sext16 v)) ∧
      ∃ u, exec (.lhu rd b' off') t = .next u ∧ RegWritten t u rd (zext16 v)) ∧
    (Accessible config a 4 → ∃ t, exec (.sw b src off) s = .next t ∧
      ∃ u, exec (.lw rd b' off') t = .next u ∧ RegWritten t u rd v)

/-- R71, R300: a word stored to an address is the word that a fetch there reads next. -/
def Obligations.StoreIsSeenByNextFetch : Prop :=
  ∀ (s : State) (b src : Reg) (off : BitVec 12) (i : Instr), s.run = .running →
    Accessible config (effectiveAddress s b off) 4 → i.wf = true → s.getX src = encode i →
    ∃ t, exec (.sw b src off) s = .next t ∧
      step (t.setPc (effectiveAddress s b off)) = exec i (t.setPc (effectiveAddress s b off))

/-! ## CSR and system instructions -/

/-- R231 to R233: the old value goes to `x[rd]`; the source is read before either is written. -/
def Obligations.CsrRegisterForms : Prop :=
  RowDecodes 0x0000707F#32 0x00001073#32 (fun w => .csrrw (fRd w) (fRs1 w) (fCsr w)) ∧
  RowDecodes 0x0000707F#32 0x00002073#32 (fun w => .csrrs (fRd w) (fRs1 w) (fCsr w)) ∧
  RowDecodes 0x0000707F#32 0x00003073#32 (fun w => .csrrc (fRd w) (fRs1 w) (fCsr w)) ∧
  ∀ (s : State) (rd rs1 : Reg) (k : CsrIdx),
    ExchangesCsr (.csrrw rd rs1 k) s rd k (s.getX rs1) ∧
    (∃ v, Bitwise or (s.getCsr k) (s.getX rs1) v ∧ ExchangesCsr (.csrrs rd rs1 k) s rd k v) ∧
    (∃ v, Bitwise (fun a b => a && !b) (s.getCsr k) (s.getX rs1) v ∧ ExchangesCsr (.csrrc rd rs1 k) s rd k v)

/-- R234 to R236: the source is the 5-bit immediate read as unsigned. -/
def Obligations.CsrImmediateForms : Prop :=
  RowDecodes 0x0000707F#32 0x00005073#32 (fun w => .csrrwi (fRd w) (fRs1 w) (fCsr w)) ∧
  RowDecodes 0x0000707F#32 0x00006073#32 (fun w => .csrrsi (fRd w) (fRs1 w) (fCsr w)) ∧
  RowDecodes 0x0000707F#32 0x00007073#32 (fun w => .csrrci (fRd w) (fRs1 w) (fCsr w)) ∧
  ∀ (s : State) (rd : Reg) (zimm : BitVec 5) (k : CsrIdx),
    ExchangesCsr (.csrrwi rd zimm k) s rd k (BitVec.ofNat 32 zimm.toNat) ∧
    (∃ v, Bitwise or (s.getCsr k) (BitVec.ofNat 32 zimm.toNat) v ∧ ExchangesCsr (.csrrsi rd zimm k) s rd k v) ∧
    (∃ v, Bitwise (fun a b => a && !b) (s.getCsr k) (BitVec.ofNat 32 zimm.toNat) v ∧
      ExchangesCsr (.csrrci rd zimm k) s rd k v)

/-- R267: what ECALL saves and where control goes, whatever the open cause value and the cause slot are. -/
def Obligations.EcallTrapEntry : Prop :=
  RowDecodes 0xFFFFFFFF#32 0x00000073#32 (fun _ => .ecall) ∧
  ∀ s : State, ∃ t, exec .ecall s = .next t ∧ CsrWritten s t config.trapCauseCsr config.ecallCause ∧
    t.pc = t.getCsr 0x305#12 ∧ (config.trapCauseCsr ≠ 0x305#12 → t.pc = s.getCsr 0x305#12) ∧ t.run = .halted ∧
    SameRegs s t ∧ SameBytes s t

/-- R251, R252: MRET and FENCE only advance `pc`, whatever the fields of the FENCE word hold. -/
def Obligations.MretAndFence : Prop :=
  RowDecodes 0xFFFFFFFF#32 0x30200073#32 (fun _ => .mret) ∧
  RowDecodes 0x0000707F#32 0x0000000F#32 (fun w => .fence (fFm w) (fPred w) (fSucc w) (fRs1 w) (fRd w)) ∧
  ∀ (s : State) (fm pred succ : BitVec 4) (rs1 rd : Reg),
    MovesPcOnly .mret s (s.pc + 4#32) ∧ MovesPcOnly (.fence fm pred succ rs1 rd) s (s.pc + 4#32)

/-! ## Rules about every instruction -/

/-- R36, R123: an instruction that completes leaves the run as it was, but for ECALL, and no step leaves a Faulted
state. The last clause is the spec's decision D13 (log entry 9): no step is defined but in Running, and the model
refuses it by name. -/
def Obligations.RunStateTransitions : Prop :=
  (∀ (i : Instr) (s t : State), exec i s = .next t → t.run = if i = .ecall then .halted else s.run) ∧
  (∀ s t : State, step s = .next t → t.run ≠ .faulted) ∧
  ∀ s : State, s.run ≠ .running → step s = .refused (.noStepDefined s.run)

/-- R28: an instruction changes at most the register that its `rd` names. -/
def Obligations.AtMostOneRegisterChanges : Prop :=
  ∀ (i : Instr) (s t : State) (r : Reg), exec i s = .next t → t.getX r ≠ s.getX r → destReg i = some r

/-- R64, R120: only a store changes memory, and only the bytes of its access. -/
def Obligations.OnlyStoresChangeMemory : Prop :=
  ∀ (i : Instr) (s t : State) (a : Nat), exec i s = .next t → t.byteAt a ≠ s.byteAt a →
    isStore i = true ∧ ∃ base off n, dataAccess i = some (base, off, n) ∧
      (effectiveAddress s base off).toNat ≤ a ∧ a < (effectiveAddress s base off).toNat + n

/-- R33: only a CSR instruction changes a CSR, the one it names, and ECALL the trap-cause register. -/
def Obligations.CsrAccessPaths : Prop :=
  ∀ (i : Instr) (s t : State) (k : CsrIdx), exec i s = .next t → t.getCsr k ≠ s.getCsr k → destCsr i = some k

/-- R33: an instruction that is no CSR instruction and no ECALL learns nothing of the CSR bank. -/
def Obligations.CsrBankIsInvisibleToOthers : Prop :=
  ∀ (i : Instr) (s : State) (b : CsrBank), destCsr i = none →
    exec i (State.mk s.pc s.x b s.run s.mem) = withCsr b (exec i s)

/-- R122: every instruction but a branch, a jump and ECALL goes on at `pc + 4`, modulo 2^32. -/
def Obligations.SequentialPc : Prop :=
  ∀ (i : Instr) (s t : State), isSequential i = true → exec i s = .next t →
    t.pc = BitVec.ofNat 32 (s.pc.toNat + 4)

/-- Every instruction that accesses no memory completes in every state; a load or store completes exactly where its
access happens. -/
def Obligations.WhereInstructionsComplete : Prop :=
  (∀ (i : Instr) (s : State), dataAccess i = none → ∃ t, exec i s = .next t) ∧
  ∀ (i : Instr) (s : State) (base : Reg) (off : BitVec 12) (n : Nat), dataAccess i = some (base, off, n) →
    ((∃ t, exec i s = .next t) ↔ Accessible config (effectiveAddress s base off) n)

/-! ## The invariant -/

/-- The invariant holds at reset. -/
def Obligations.ResetMeetsInvariant : Prop := State.reset.Inv

/-- Every step from a state that meets the invariant leaves a state that meets it. -/
def Obligations.StepKeepsInvariant : Prop := ∀ s t : State, s.Inv → step s = .next t → t.Inv

/-- Every state that loads and steps can make of the reset state meets the invariant, and a load from any state that
meets it keeps it. -/
def Obligations.ReachableStatesMeetInvariant : Prop :=
  (∀ (s : State) (addr : Word) (bytes : List Byte) (m : Memory), s.Inv →
    loadBytes config s.mem addr bytes = .ok m → (s.setMem m).Inv) ∧
  ∀ s : State, Reachable s → s.Inv

/-! ## The host's side -/

/-- R73, with the spec's decisions D14 and D24: what a load copies, where it fails, and when none is defined. The model's
own choice (log entries 11 and 17) is that a refused load, and any refused call of the host, ends the session under the
refusal's name. -/
def Obligations.HostLoad : Prop :=
  (∀ (c : Config) (m : Memory) (addr : Word) (bytes : List Byte),
    (InBounds c addr bytes.length → ∃ m', loadBytes c m addr bytes = .ok m' ∧ ∀ a, SparseMap.get m' a =
      if addr.toNat ≤ a ∧ a < addr.toNat + bytes.length then bytes.getD (a - addr.toNat) 0#8
      else SparseMap.get m a) ∧
    (addr.toNat < c.dramBase.toNat → loadBytes c m addr bytes = .error (.outOfBounds .bus)) ∧
    (c.dramBase.toNat ≤ addr.toNat → c.dramBase.toNat + c.dramSize < addr.toNat + bytes.length →
      loadBytes c m addr bytes = .error (.outOfBounds .memory))) ∧
  (∀ (s : State) (addr : Word) (bytes : List Byte), bytes ≠ [] →
    (∀ m, loadBytes config s.mem addr bytes = .ok m →
      Session.load (.loading s) addr bytes = (.loading (s.setMem m), .ok)) ∧
    ∀ l, loadBytes config s.mem addr bytes = .error (.outOfBounds l) →
      Session.load (.loading s) addr bytes = (.loading s, .error ⟨.load, some l, .addressOutOfBounds⟩)) ∧
  (∀ (s : State) (addr : Word) (bytes : List Byte),
    Session.load (.loading s) addr [] = (.refused .emptyLoad, .refused .emptyLoad) ∧
    Session.load (.started s) addr bytes = (.refused .loadAfterFirstStep, .refused .loadAfterFirstStep)) ∧
  ∀ (ses : Session) (addr : Word) (bytes : List Byte) (r : Refusal),
    ((ses.load addr bytes).2 = .refused r → (ses.load addr bytes).1 = .refused r) ∧
    (ses.step.2 = .refused r → ses.step.1 = .refused r)

/-- R296: construct, load an instruction's bytes at the reset `pc`, step: the step runs that instruction. -/
def Obligations.BootRunsLoadedInstruction : Prop :=
  ∀ (i : Instr) (image : List Byte), i.wf = true → image = bytesOf config.byteOrder .word (encode i) →
    ∃ s, Session.construct.load config.resetPc image = (.loading s, .ok) ∧
      s = State.reset.withFetchWord 32 (encode i).toNat ∧
      Session.step (.loading s) = Session.afterStep (exec i s)

/-- R279: a run that ends by Halted ends with `pc` and the trap-cause register as ECALL leaves them, and the end that a
run has within `n` steps it keeps with more. -/
def Obligations.EndOfRun : Prop :=
  (∀ (n : Nat) (s t : State), runEnd n s = some (.halted t) →
    t.run = .halted ∧ t.pc = t.getCsr 0x305#12 ∧ t.getCsr config.trapCauseCsr = config.ecallCause) ∧
  ∀ (n m : Nat) (s : State) (e : RunEnd), runEnd n s = some e → n ≤ m → runEnd m s = some e

/-- R100 (the spec's decision D17): `li` loads every 32-bit constant, and `la` every address, in the register it
names, through the split of the constant. -/
def Obligations.SplitConstantsAreLoaded : Prop :=
  ∀ (s : State) (rd : Reg) (imm : Word),
    (∃ t, execAll (expand (.li rd imm)) s = .next t ∧ RegWritten s t rd imm ∧ SameCsrs s t ∧ SameBytes s t) ∧
    (∃ t, execAll (expand (.la rd imm)) s = .next t ∧ RegWritten s t rd (s.pc + imm) ∧ SameCsrs s t ∧ SameBytes s t)

end
end

