-- ==== Sys2Proof/Laws/SparseMap.lean ====
section
/-! SUPPORT. The laws of sparse storage: read after write, and that a write keeps the canonical form. -/

namespace Sys2Proof.Machine

variable {w : Nat}

@[simp] theorem SparseMap.get_nil (k : Nat) : SparseMap.get ([] : List (Nat × BitVec w)) k = 0 := rfl

theorem SparseMap.get_filter_other {m : List (Nat × BitVec w)} {k j : Nat} (h : j ≠ k) :
    SparseMap.get (m.filter (fun e => e.1 != k)) j = SparseMap.get m j := by
  induction m with
  | nil => rfl
  | cons e rest ih =>
    by_cases he : e.1 = k
    · simp [he, SparseMap.get, Ne.symm h, ih]
    · simp [he, SparseMap.get, ih]

theorem SparseMap.get_filter_same (m : List (Nat × BitVec w)) (k : Nat) :
    SparseMap.get (m.filter (fun e => e.1 != k)) k = SparseMap.unlisted w := by
  induction m with
  | nil => rfl
  | cons e rest ih =>
    by_cases he : e.1 = k <;> simp [he, SparseMap.get, ih]

theorem SparseMap.get_place_same {m : List (Nat × BitVec w)} {k : Nat} {v : BitVec w}
    (h : ∀ e ∈ m, e.1 ≠ k) : SparseMap.get (SparseMap.place k v m) k = v := by
  induction m with
  | nil => simp [SparseMap.place, SparseMap.get]
  | cons e rest ih =>
    have he : e.1 ≠ k := h e (by simp)
    have hr := ih fun a ha => h a (by simp [ha])
    by_cases hlt : k < e.1 <;> simp [SparseMap.place, SparseMap.get, hlt, he, hr]

theorem SparseMap.get_place_other {m : List (Nat × BitVec w)} {k j : Nat} {v : BitVec w} (h : j ≠ k) :
    SparseMap.get (SparseMap.place k v m) j = SparseMap.get m j := by
  induction m with
  | nil => simp [SparseMap.place, SparseMap.get, Ne.symm h]
  | cons e rest ih =>
    by_cases hlt : k < e.1 <;> simp [SparseMap.place, SparseMap.get, hlt, Ne.symm h, ih]

/-- A read after a write: the value written at its key, the old value at every other. No premise on `m`. -/
theorem SparseMap.get_set (m : List (Nat × BitVec w)) (k j : Nat) (v : BitVec w) :
    SparseMap.get (SparseMap.set m k v) j = if j = k then v else SparseMap.get m j := by
  unfold SparseMap.set
  by_cases hv : v = SparseMap.unlisted w
  · by_cases h : j = k
    · subst h; simp [hv, SparseMap.get_filter_same]
    · simp [hv, h, SparseMap.get_filter_other h]
  · by_cases h : j = k
    · subst h
      simp only [hv, if_false, if_true]
      exact SparseMap.get_place_same (by simp)
    · simp [hv, h, SparseMap.get_place_other h, SparseMap.get_filter_other h]

@[simp] theorem SparseMap.get_set_same (m : List (Nat × BitVec w)) (k : Nat) (v : BitVec w) :
    SparseMap.get (SparseMap.set m k v) k = v := by
  simp [SparseMap.get_set]

theorem SparseMap.get_set_other (m : List (Nat × BitVec w)) {k j : Nat} (v : BitVec w) (h : j ≠ k) :
    SparseMap.get (SparseMap.set m k v) j = SparseMap.get m j := by
  simp [SparseMap.get_set, h]

theorem SparseMap.mem_place {m : List (Nat × BitVec w)} {k : Nat} {v : BitVec w} {e : Nat × BitVec w} :
    e ∈ SparseMap.place k v m ↔ e = (k, v) ∨ e ∈ m := by
  induction m with
  | nil => simp [SparseMap.place]
  | cons a rest ih =>
    by_cases hlt : k < a.1
    · simp [SparseMap.place, hlt]
    · simp only [SparseMap.place, hlt, if_false, List.mem_cons, ih]
      tauto

/-- An entry after a write is an old one at another key or the new one. -/
theorem SparseMap.mem_set {m : List (Nat × BitVec w)} {k : Nat} {v : BitVec w} {e : Nat × BitVec w}
    (h : e ∈ SparseMap.set m k v) : e = (k, v) ∨ e ∈ m := by
  unfold SparseMap.set at h
  by_cases hv : v = SparseMap.unlisted w
  · simp [hv] at h; exact .inr h.1
  · simp only [hv, if_false, SparseMap.mem_place, List.mem_filter] at h
    tauto

theorem SparseMap.pairwise_place {m : List (Nat × BitVec w)} {k : Nat} {v : BitVec w}
    (hm : m.Pairwise (fun a b => a.1 < b.1)) (hk : ∀ e ∈ m, e.1 ≠ k) :
    (SparseMap.place k v m).Pairwise (fun a b => a.1 < b.1) := by
  induction m with
  | nil => simp [SparseMap.place]
  | cons a rest ih =>
    rw [List.pairwise_cons] at hm
    by_cases hlt : k < a.1
    · rw [SparseMap.place, if_pos hlt]
      simp only [List.pairwise_cons, List.mem_cons, forall_eq_or_imp]
      exact ⟨⟨hlt, fun b hb => hlt.trans (hm.1 b hb)⟩, hm⟩
    · rw [SparseMap.place, if_neg hlt, List.pairwise_cons]
      refine ⟨fun b hb => ?_, ih hm.2 fun e he => hk e (by simp [he])⟩
      rcases SparseMap.mem_place.1 hb with rfl | hb
      · have := hk a (by simp)
        simp only; omega
      · exact hm.1 b hb

/-- A write keeps the canonical form. -/
theorem SparseMap.set_wf {m : List (Nat × BitVec w)} (h : SparseMap.WF m) (k : Nat) (v : BitVec w) :
    SparseMap.WF (SparseMap.set m k v) := by
  have hf : (m.filter (fun e => e.1 != k)).Pairwise (fun a b => a.1 < b.1) := h.1.filter _
  unfold SparseMap.set
  by_cases hv : v = SparseMap.unlisted w
  · simp only [hv, if_true]
    exact ⟨hf, fun e he => h.2 e (List.mem_filter.1 he).1⟩
  · simp only [hv, if_false]
    refine ⟨SparseMap.pairwise_place hf (by simp), fun e he => ?_⟩
    rcases SparseMap.mem_place.1 he with rfl | he
    · exact hv
    · exact h.2 e (List.mem_filter.1 he).1

end Sys2Proof.Machine
end

