-- ==== Sys2Proof/Laws/State.lean ====
section
/-! SUPPORT. One lemma per field and update of State, and the read-after-write laws of its accessors. -/

namespace Sys2Proof.Machine

variable (s : State)

/-! ## Fields after an update -/

@[simp] theorem State.setPc_pc (t : Word) : (s.setPc t).pc = t := rfl
@[simp] theorem State.setPc_x (t : Word) : (s.setPc t).x = s.x := rfl
@[simp] theorem State.setPc_csr (t : Word) : (s.setPc t).csr = s.csr := rfl
@[simp] theorem State.setPc_run (t : Word) : (s.setPc t).run = s.run := rfl
@[simp] theorem State.setPc_mem (t : Word) : (s.setPc t).mem = s.mem := rfl

@[simp] theorem State.setRun_pc (r : RunState) : (s.setRun r).pc = s.pc := rfl
@[simp] theorem State.setRun_x (r : RunState) : (s.setRun r).x = s.x := rfl
@[simp] theorem State.setRun_csr (r : RunState) : (s.setRun r).csr = s.csr := rfl
@[simp] theorem State.setRun_run (r : RunState) : (s.setRun r).run = r := rfl
@[simp] theorem State.setRun_mem (r : RunState) : (s.setRun r).mem = s.mem := rfl

@[simp] theorem State.setMem_pc (m : Memory) : (s.setMem m).pc = s.pc := rfl
@[simp] theorem State.setMem_x (m : Memory) : (s.setMem m).x = s.x := rfl
@[simp] theorem State.setMem_csr (m : Memory) : (s.setMem m).csr = s.csr := rfl
@[simp] theorem State.setMem_run (m : Memory) : (s.setMem m).run = s.run := rfl
@[simp] theorem State.setMem_mem (m : Memory) : (s.setMem m).mem = m := rfl

@[simp] theorem State.setCsr_pc (k : CsrIdx) (v : Word) : (s.setCsr k v).pc = s.pc := rfl
@[simp] theorem State.setCsr_x (k : CsrIdx) (v : Word) : (s.setCsr k v).x = s.x := rfl
@[simp] theorem State.setCsr_csr (k : CsrIdx) (v : Word) :
    (s.setCsr k v).csr = SparseMap.set s.csr k.toNat v := rfl
@[simp] theorem State.setCsr_run (k : CsrIdx) (v : Word) : (s.setCsr k v).run = s.run := rfl
@[simp] theorem State.setCsr_mem (k : CsrIdx) (v : Word) : (s.setCsr k v).mem = s.mem := rfl

@[simp] theorem State.setX_pc (i : Reg) (v : Word) : (s.setX i v).pc = s.pc := by
  unfold State.setX; split <;> rfl
@[simp] theorem State.setX_csr (i : Reg) (v : Word) : (s.setX i v).csr = s.csr := by
  unfold State.setX; split <;> rfl
@[simp] theorem State.setX_run (i : Reg) (v : Word) : (s.setX i v).run = s.run := by
  unfold State.setX; split <;> rfl
@[simp] theorem State.setX_mem (i : Reg) (v : Word) : (s.setX i v).mem = s.mem := by
  unfold State.setX; split <;> rfl
@[simp] theorem State.setX_zero (v : Word) : s.setX 0#5 v = s := rfl

/-! ## Reads through an update that does not touch them -/

@[simp] theorem State.setPc_getX (t : Word) (r : Reg) : (s.setPc t).getX r = s.getX r := rfl
@[simp] theorem State.setPc_getCsr (t : Word) (k : CsrIdx) : (s.setPc t).getCsr k = s.getCsr k := rfl
@[simp] theorem State.setPc_byteAt (t : Word) (a : Nat) : (s.setPc t).byteAt a = s.byteAt a := rfl
@[simp] theorem State.setRun_getX (q : RunState) (r : Reg) : (s.setRun q).getX r = s.getX r := rfl
@[simp] theorem State.setRun_getCsr (q : RunState) (k : CsrIdx) : (s.setRun q).getCsr k = s.getCsr k := rfl
@[simp] theorem State.setRun_byteAt (q : RunState) (a : Nat) : (s.setRun q).byteAt a = s.byteAt a := rfl
@[simp] theorem State.setMem_getX (m : Memory) (r : Reg) : (s.setMem m).getX r = s.getX r := rfl
@[simp] theorem State.setMem_getCsr (m : Memory) (k : CsrIdx) : (s.setMem m).getCsr k = s.getCsr k := rfl
@[simp] theorem State.setMem_byteAt (m : Memory) (a : Nat) : (s.setMem m).byteAt a = SparseMap.get m a := rfl
@[simp] theorem State.setCsr_getX (k : CsrIdx) (v : Word) (r : Reg) : (s.setCsr k v).getX r = s.getX r := rfl
@[simp] theorem State.setCsr_byteAt (k : CsrIdx) (v : Word) (a : Nat) : (s.setCsr k v).byteAt a = s.byteAt a := rfl
@[simp] theorem State.setX_getCsr (i : Reg) (v : Word) (k : CsrIdx) : (s.setX i v).getCsr k = s.getCsr k := by
  simp [State.getCsr]
@[simp] theorem State.setX_byteAt (i : Reg) (v : Word) (a : Nat) : (s.setX i v).byteAt a = s.byteAt a := by
  simp [State.byteAt]

/-! ## Read after write -/

@[simp] theorem State.getX_zero : s.getX 0#5 = 0#32 := rfl

theorem State.getX_setX (i r : Reg) (v : Word) :
    (s.setX i v).getX r = if r = i ∧ r ≠ 0#5 then v else s.getX r := by
  by_cases hr : r = 0#5
  · simp [hr, State.getX]
  by_cases hi : i = 0#5
  · have hne : r ≠ i := by rintro rfl; exact hr hi
    subst hi
    simp [hne]
  · have hnat : i.toNat = r.toNat ↔ r = i := by
      rw [BitVec.toNat_inj]; exact eq_comm
    simp [State.getX, State.setX, hr, hi, Vector.getElem_set, hnat]

@[simp] theorem State.getX_setX_same {i : Reg} (v : Word) (h : i ≠ 0#5) : (s.setX i v).getX i = v := by
  simp [State.getX_setX, h]

theorem State.getX_setX_other {i r : Reg} (v : Word) (h : r ≠ i) : (s.setX i v).getX r = s.getX r := by
  simp [State.getX_setX, h]

theorem State.getCsr_setCsr (k j : CsrIdx) (v : Word) :
    (s.setCsr k v).getCsr j = if j = k then v else s.getCsr j := by
  simp [State.getCsr, SparseMap.get_set, BitVec.toNat_inj]

@[simp] theorem State.getCsr_setCsr_same (k : CsrIdx) (v : Word) : (s.setCsr k v).getCsr k = v := by
  simp [State.getCsr_setCsr]

theorem State.getCsr_setCsr_other {k j : CsrIdx} (v : Word) (h : j ≠ k) :
    (s.setCsr k v).getCsr j = s.getCsr j := by
  simp [State.getCsr_setCsr, h]

/-- The entry of `x0` is not written. -/
theorem State.setX_x_zero (i : Reg) (v : Word) : (s.setX i v).x[0] = s.x[0] := by
  by_cases hi : i = 0#5
  · simp [hi]
  · have : i.toNat ≠ 0 := fun h => hi (by apply BitVec.eq_of_toNat_eq; simpa using h)
    simp [State.setX, hi, this]

end Sys2Proof.Machine
end

