-- ==== Sys2Proof/Laws/Memory.lean ====
section
/-! SUPPORT. The laws of bytes and of Memory: what a value's bytes are read back as, when an access happens and what
stops it, what a write changes, and that it keeps Memory's canonical form. -/

namespace Sys2Proof.Machine

/-! ## Bytes of a value -/

@[simp] theorem length_bytesMostFirst (w : Width) (v : Word) : (bytesMostFirst w v).length = w.bytes := by
  cases w <;> rfl

@[simp] theorem length_bytesOf (bo : ByteOrder) (w : Width) (v : Word) : (bytesOf bo w v).length = w.bytes := by
  cases bo <;> simp [bytesOf]

theorem bytesOf_byte (bo : ByteOrder) (v : Word) : bytesOf bo .byte v = [v.extractLsb' 0 8] := by
  cases bo <;> rfl

theorem valueOf_single (bo : ByteOrder) (b : Byte) : valueOf bo [b] = b.setWidth 32 := by
  cases bo <;> simp [valueOf, joinMostFirst]

theorem joinMostFirst_two (b0 b1 : Byte) : joinMostFirst [b0, b1] = ((b0 ++ b1).cast (by rfl) : BitVec 16).setWidth 32 := by
  apply BitVec.eq_of_getLsbD_eq
  intro i hi
  simp only [joinMostFirst, List.foldl, BitVec.getLsbD_setWidth, BitVec.getLsbD_cast, BitVec.getLsbD_append]
  interval_cases i <;> simp

theorem joinMostFirst_four (b0 b1 b2 b3 : Byte) :
    joinMostFirst [b0, b1, b2, b3] = (b0 ++ b1 ++ b2 ++ b3).cast (by rfl) := by
  apply BitVec.eq_of_getLsbD_eq
  intro i hi
  simp only [joinMostFirst, List.foldl, BitVec.getLsbD_cast, BitVec.getLsbD_append]
  interval_cases i <;> simp

theorem toNat_append_byte {n : Nat} (a : BitVec n) (b : Byte) : (a ++ b).toNat = a.toNat * 256 + b.toNat := by
  rw [BitVec.toNat_append, ← Nat.shiftLeft_add_eq_or_of_lt b.isLt, Nat.shiftLeft_eq]

theorem toNat_joinMostFirst_two (b0 b1 : Byte) : (joinMostFirst [b0, b1]).toNat = b0.toNat * 256 + b1.toNat := by
  have h0 := b0.isLt
  have h1 := b1.isLt
  rw [joinMostFirst_two, BitVec.toNat_setWidth, BitVec.toNat_cast, toNat_append_byte]
  omega

theorem toNat_joinMostFirst_four (b0 b1 b2 b3 : Byte) : (joinMostFirst [b0, b1, b2, b3]).toNat =
    b0.toNat * 16777216 + b1.toNat * 65536 + b2.toNat * 256 + b3.toNat := by
  rw [joinMostFirst_four, BitVec.toNat_cast, toNat_append_byte, toNat_append_byte, toNat_append_byte]
  omega

/-- The low `8n` bits of a value. -/
def Width.truncate (w : Width) (v : Word) : Word := (v.setWidth (8 * w.bytes)).setWidth 32

theorem joinMostFirst_bytesMostFirst (w : Width) (v : Word) : joinMostFirst (bytesMostFirst w v) = w.truncate v := by
  apply BitVec.eq_of_getLsbD_eq
  intro i hi
  cases w <;> simp only [joinMostFirst, bytesMostFirst, Width.truncate, Width.bytes, List.foldl] <;>
    interval_cases i <;> simp

/-- A value's bytes are read back as its low bits, in either byte order. -/
theorem valueOf_bytesOf (bo : ByteOrder) (w : Width) (v : Word) : valueOf bo (bytesOf bo w v) = w.truncate v := by
  cases bo <;> simp [valueOf, bytesOf, joinMostFirst_bytesMostFirst]

@[simp] theorem truncate_word (v : Word) : Width.word.truncate v = v := by
  simp [Width.truncate, Width.bytes]

/-! ## Runs of bytes in Memory -/

@[simp] theorem length_readBytes (m : Memory) (a n : Nat) : (readBytes m a n).length = n := by
  induction n generalizing a with
  | zero => rfl
  | succ n ih => simp [readBytes, ih]

theorem readBytes_congr {m m' : Memory} {a n : Nat}
    (h : ∀ j, a ≤ j → j < a + n → SparseMap.get m j = SparseMap.get m' j) : readBytes m a n = readBytes m' a n := by
  induction n generalizing a with
  | zero => rfl
  | succ n ih =>
    simp only [readBytes]
    rw [h a (by omega) (by omega), ih fun j h1 h2 => h j (by omega) (by omega)]

/-- A write changes the bytes written and no other. -/
theorem get_writeBytes (m : Memory) (a : Nat) (bs : List Byte) (j : Nat) :
    SparseMap.get (writeBytes m a bs) j = if a ≤ j ∧ j < a + bs.length then bs.getD (j - a) 0#8 else SparseMap.get m j := by
  induction bs generalizing m a with
  | nil => simp [writeBytes, show ¬(a ≤ j ∧ j < a) by omega]
  | cons b bs ih =>
    simp only [writeBytes, ih, SparseMap.get_set, List.length_cons]
    by_cases h : j = a
    · subst h
      simp
    · by_cases h1 : a + 1 ≤ j ∧ j < a + 1 + bs.length
      · rw [if_pos h1, if_pos (by omega), show j - a = (j - (a + 1)) + 1 by omega, List.getD_cons_succ]
      · rw [if_neg h1, if_neg h, if_neg (by omega)]

theorem get_writeBytes_outside {m : Memory} {a : Nat} {bs : List Byte} {j : Nat}
    (h : ¬(a ≤ j ∧ j < a + bs.length)) : SparseMap.get (writeBytes m a bs) j = SparseMap.get m j := by
  rw [get_writeBytes, if_neg h]

/-- What was written is read back. -/
theorem readBytes_writeBytes (m : Memory) (a : Nat) (bs : List Byte) :
    readBytes (writeBytes m a bs) a bs.length = bs := by
  induction bs generalizing m a with
  | nil => rfl
  | cons b bs ih =>
    simp only [List.length_cons, readBytes, writeBytes]
    rw [ih, get_writeBytes_outside (by omega), SparseMap.get_set_same]

theorem writeBytes_wf {m : Memory} {a : Nat} {bs : List Byte} (h : SparseMap.WF m) : SparseMap.WF (writeBytes m a bs) := by
  induction bs generalizing m a with
  | nil => exact h
  | cons b bs ih => exact ih (SparseMap.set_wf h a b)

/-- An entry after a write is an old one or lies in the range written. -/
theorem mem_writeBytes {m : Memory} {a : Nat} {bs : List Byte} {e : Host.Cell} (h : e ∈ writeBytes m a bs) :
    e ∈ m ∨ a ≤ e.1 ∧ e.1 < a + bs.length := by
  induction bs generalizing m a with
  | nil => exact .inl h
  | cons b bs ih =>
    simp only [List.length_cons]
    rcases ih h with h | h
    · rcases SparseMap.mem_set h with rfl | h
      · right; simp
      · exact .inl h
    · right; omega

/-! ## When an access happens -/

theorem boundsStop_eq_none {c : Config} {addr : Word} {n : Nat} : boundsStop c addr n = none ↔ InBounds c addr n := by
  unfold boundsStop
  by_cases h : addr < c.dramBase
  · have := BitVec.lt_def.1 h
    simp only [h, if_true]
    constructor
    · intro h; cases h
    · rintro ⟨h1, _⟩; omega
  · have : c.dramBase.toNat ≤ addr.toNat := by
      have := mt BitVec.lt_def.2 h; omega
    simp only [h, if_false]
    split
    · constructor
      · intro h; cases h
      · rintro ⟨_, h2⟩; omega
    · exact ⟨fun _ => ⟨this, by omega⟩, fun _ => rfl⟩

/-- The Bus finds the address below the window. -/
theorem boundsStop_bus {c : Config} {addr : Word} {n : Nat} (h : addr.toNat < c.dramBase.toNat) :
    boundsStop c addr n = some (.outOfBounds .bus) := by
  simp [boundsStop, BitVec.lt_def, h]

/-- Memory finds the range past the top of the window. -/
theorem boundsStop_memory {c : Config} {addr : Word} {n : Nat} (h : c.dramBase.toNat ≤ addr.toNat)
    (h' : c.dramBase.toNat + c.dramSize < addr.toNat + n) : boundsStop c addr n = some (.outOfBounds .memory) := by
  have : ¬addr < c.dramBase := by rw [BitVec.lt_def]; omega
  simp only [boundsStop, this, if_false]
  rw [if_pos (by omega)]

theorem accessStop_eq_none {c : Config} {addr : Word} {n : Nat} :
    accessStop c addr n = none ↔ (c.misaligned = .bytewise ∨ aligned addr n = true) ∧ InBounds c addr n := by
  unfold accessStop
  cases c.misaligned <;> cases aligned addr n <;> simp [boundsStop_eq_none]

/-- Where the access is not aligned, under `MISALIGNED = Refuse`. -/
theorem accessStop_misaligned {c : Config} {addr : Word} {n : Nat} (hm : c.misaligned = .refuse)
    (ha : addr.toNat % n ≠ 0) : accessStop c addr n = some .misaligned := by
  have h : (addr.toNat % n == 0) = false := by simpa using ha
  simp only [accessStop, hm, aligned, h]

/-- Where alignment does not stop the access, the bound checks decide. -/
theorem accessStop_eq_boundsStop {c : Config} {addr : Word} {n : Nat}
    (ha : c.misaligned = .refuse → addr.toNat % n = 0) : accessStop c addr n = boundsStop c addr n := by
  unfold accessStop
  cases hm : c.misaligned
  · simp [aligned, ha hm]
  · simp

/-- When an access happens, with alignment said on the number. -/
theorem accessStop_none_iff {c : Config} {addr : Word} {n : Nat} : accessStop c addr n = none ↔
    (c.misaligned = .refuse → addr.toNat % n = 0) ∧ InBounds c addr n := by
  rw [accessStop_eq_none]
  cases hm : c.misaligned <;> simp [aligned]

/-- All that a bound check which stops says. -/
theorem boundsStop_inv {c : Config} {addr : Word} {n : Nat} {e : AccessStop} (h : boundsStop c addr n = some e) :
    (addr.toNat < c.dramBase.toNat ∧ e = .outOfBounds .bus) ∨
    (c.dramBase.toNat ≤ addr.toNat ∧ c.dramBase.toNat + c.dramSize < addr.toNat + n ∧ e = .outOfBounds .memory) := by
  rcases Nat.lt_or_ge addr.toNat c.dramBase.toNat with hl | hl
  · rw [boundsStop_bus hl] at h
    exact .inl ⟨hl, (Option.some.inj h).symm⟩
  · rcases Nat.lt_or_ge (c.dramBase.toNat + c.dramSize) (addr.toNat + n) with hu | hu
    · rw [boundsStop_memory hl hu] at h
      exact .inr ⟨hl, hu, (Option.some.inj h).symm⟩
    · rw [boundsStop_eq_none.2 ⟨hl, hu⟩] at h
      cases h

/-- Every access that a data width allows is aligned for one byte. -/
@[simp] theorem aligned_one (addr : Word) : aligned addr 1 = true := by
  simp [aligned, Nat.mod_one]

theorem memRead_eq_ok {c : Config} {m : Memory} {addr : Word} {w : Width} (h : accessStop c addr w.bytes = none) :
    memRead c m addr w = .ok (valueOf c.byteOrder (readBytes m addr.toNat w.bytes)) := by
  simp [memRead, h]

theorem memWrite_eq_ok {c : Config} {m : Memory} {addr : Word} {w : Width} {v : Word}
    (h : accessStop c addr w.bytes = none) :
    memWrite c m addr w v = .ok (writeBytes m addr.toNat (bytesOf c.byteOrder w v)) := by
  simp [memWrite, h]

theorem memRead_eq_error {c : Config} {m : Memory} {addr : Word} {w : Width} {e : AccessStop}
    (h : accessStop c addr w.bytes = some e) : memRead c m addr w = .error e := by
  simp [memRead, h]

theorem memWrite_eq_error {c : Config} {m : Memory} {addr : Word} {w : Width} {v : Word} {e : AccessStop}
    (h : accessStop c addr w.bytes = some e) : memWrite c m addr w v = .error e := by
  simp [memWrite, h]

/-- All a read that answers a value says. -/
theorem memRead_ok_inv {c : Config} {m : Memory} {addr : Word} {w : Width} {v : Word}
    (h : memRead c m addr w = .ok v) :
    accessStop c addr w.bytes = none ∧ v = valueOf c.byteOrder (readBytes m addr.toNat w.bytes) := by
  unfold memRead at h
  split at h
  · cases h
  · exact ⟨‹_›, (Except.ok.inj h).symm⟩

/-- All a write that answers a memory says. -/
theorem memWrite_ok_inv {c : Config} {m m' : Memory} {addr : Word} {w : Width} {v : Word}
    (h : memWrite c m addr w v = .ok m') :
    accessStop c addr w.bytes = none ∧ m' = writeBytes m addr.toNat (bytesOf c.byteOrder w v) := by
  unfold memWrite at h
  split at h
  · cases h
  · exact ⟨‹_›, (Except.ok.inj h).symm⟩

/-- A store keeps Memory's canonical form, every listed address in the window. -/
theorem memWrite_wf {m m' : Memory} {addr : Word} {w : Width} {v : Word} (hm : Memory.wf m)
    (h : memWrite config m addr w v = .ok m') : Memory.wf m' := by
  obtain ⟨hs, rfl⟩ := memWrite_ok_inv h
  obtain ⟨_, hb1, hb2⟩ := accessStop_eq_none.1 hs
  refine ⟨writeBytes_wf hm.1, fun e he => ?_⟩
  rcases mem_writeBytes he with he | ⟨h1, h2⟩
  · exact hm.2 e he
  · rw [length_bytesOf] at h2
    exact ⟨by omega, by omega⟩

/-- A CSR write keeps the bank's canonical form. -/
theorem setCsr_wf {s : State} (h : CsrBank.wf s.csr) (k : CsrIdx) (v : Word) : CsrBank.wf (s.setCsr k v).csr := by
  refine ⟨SparseMap.set_wf h.1 _ _, fun e he => ?_⟩
  rcases SparseMap.mem_set he with rfl | he
  · exact k.isLt
  · exact h.2 e he

end Sys2Proof.Machine
end

