-- ==== Sys2Proof/Laws/Ops.lean ====
section
/-! SUPPORT. What each shared end of an instruction meaning can do, said once: its next state, or the stop it answers. -/

namespace Sys2Proof.Machine

variable {s t : State}

/-! ## Ends that always answer a next state -/

theorem retireTo_next {a : Word} : retireTo a s = .next t ↔ t = s.setPc a := by
  simp [retireTo, eq_comm]

theorem retire_next : retire s = .next t ↔ t = s.setPc s.pcPlus4 := retireTo_next

theorem retireReg_next {rd : Reg} {v : Word} : retireReg rd v s = .next t ↔ t = (s.setX rd v).setPc s.pcPlus4 := by
  simp [retireReg, eq_comm]

theorem branchOp_next {taken : Bool} {off : Word} :
    branchOp taken off s = .next t ↔ t = s.setPc (if taken then s.pc + off else s.pcPlus4) := retireTo_next

theorem jumpOp_next {rd : Reg} {target : Word} :
    jumpOp rd target s = .next t ↔ t = (s.setX rd s.pcPlus4).setPc target := by
  simp [jumpOp, eq_comm]

theorem csrOp_next {rd : Reg} {k : CsrIdx} {new : Word → Word} : csrOp rd k new s = .next t ↔
    t = ((s.setCsr k (new (s.getCsr k))).setX rd (s.getCsr k)).setPc s.pcPlus4 := by
  simp [csrOp, eq_comm]

theorem trapReturn_next : trapReturn s = .next t ↔ t = s.setPc s.pcPlus4 := retire_next

/-- `trapTarget` is `csr[0x305]` as the bank reads after the trap's own CSR write. -/
theorem trapTarget_eq (c : Config) (s : State) :
    trapTarget c s = (s.setCsr c.trapCauseCsr c.ecallCause).getCsr trapVectorCsr := by
  by_cases h : c.trapCauseCsr = trapVectorCsr
  · simp [trapTarget, h]
  · simp [trapTarget, h, State.getCsr_setCsr, Ne.symm h]

theorem takeTrap_next {c : Config} : takeTrap c s = .next t ↔
    t = ((s.setCsr c.trapCauseCsr c.ecallCause).setRun .halted).setPc
      ((s.setCsr c.trapCauseCsr c.ecallCause).getCsr trapVectorCsr) := by
  simp [takeTrap, trapTarget_eq, eq_comm]

/-! ## Ends that can stop -/

theorem dataStop_ne_next (e : AccessStop) : dataStop e ≠ .next t := by
  cases e <;> simp [dataStop]

/-- The load, by what stops its access. -/
theorem loadOp_eq (c : Config) (w : Width) (ext : Word → Word) (rd : Reg) (addr : Word) (s : State) :
    loadOp c w ext rd addr s = match accessStop c addr w.bytes with
      | some e => dataStop e
      | none => retireReg rd (ext (valueOf c.byteOrder (readBytes s.mem addr.toNat w.bytes))) s := by
  unfold loadOp memRead
  cases accessStop c addr w.bytes <;> rfl

/-- The store, by what stops its access. -/
theorem storeOp_eq (c : Config) (w : Width) (addr v : Word) (s : State) :
    storeOp c w addr v s = match accessStop c addr w.bytes with
      | some e => dataStop e
      | none => .next ((s.setMem (writeBytes s.mem addr.toNat (bytesOf c.byteOrder w v))).setPc s.pcPlus4) := by
  unfold storeOp memWrite
  cases accessStop c addr w.bytes <;> rfl

theorem loadOp_next {c : Config} {w : Width} {ext : Word → Word} {rd : Reg} {addr : Word} :
    loadOp c w ext rd addr s = .next t ↔ accessStop c addr w.bytes = none ∧
      t = (s.setX rd (ext (valueOf c.byteOrder (readBytes s.mem addr.toNat w.bytes)))).setPc s.pcPlus4 := by
  rw [loadOp_eq]
  cases h : accessStop c addr w.bytes
  · simp [retireReg_next]
  · simp [dataStop_ne_next]

theorem storeOp_next {c : Config} {w : Width} {addr v : Word} :
    storeOp c w addr v s = .next t ↔ accessStop c addr w.bytes = none ∧
      t = (s.setMem (writeBytes s.mem addr.toNat (bytesOf c.byteOrder w v))).setPc s.pcPlus4 := by
  rw [storeOp_eq]
  cases h : accessStop c addr w.bytes
  · simp [eq_comm]
  · simp [dataStop_ne_next]

end Sys2Proof.Machine
end

