-- ==== Sys2Proof/Laws/Exec.lean ====
section
/-! SUPPORT. What an instruction can do, said once: the shared operation of a load or a store, and every shape of the
next state an instruction can answer. -/

namespace Sys2Proof.Machine

variable {i : Instr} {s t : State}

/-- An instruction that accesses memory is a load into its destination or a store. -/
theorem exec_dataAccess {base : Reg} {off : BitVec 12} {n : Nat} (h : dataAccess i = some (base, off, n)) :
    ∃ w : Width, w.bytes = n ∧
      ((∃ rd ext, destReg i = some rd ∧ exec i s = loadOp config w ext rd (effectiveAddress s base off) s) ∨
       ∃ v, destReg i = none ∧ exec i s = storeOp config w (effectiveAddress s base off) v s) := by
  cases i <;> simp only [dataAccess, reduceCtorEq] at h <;>
    obtain ⟨rfl, rfl, rfl⟩ := Prod.mk.inj (Option.some.inj h) |>.imp id Prod.mk.inj
  · exact ⟨.byte, rfl, .inl ⟨_, _, rfl, rfl⟩⟩
  · exact ⟨.half, rfl, .inl ⟨_, _, rfl, rfl⟩⟩
  · exact ⟨.word, rfl, .inl ⟨_, _, rfl, rfl⟩⟩
  · exact ⟨.byte, rfl, .inl ⟨_, _, rfl, rfl⟩⟩
  · exact ⟨.half, rfl, .inl ⟨_, _, rfl, rfl⟩⟩
  · exact ⟨.byte, rfl, .inr ⟨_, rfl, rfl⟩⟩
  · exact ⟨.half, rfl, .inr ⟨_, rfl, rfl⟩⟩
  · exact ⟨.word, rfl, .inr ⟨_, rfl, rfl⟩⟩

/-- A data access that stops is the outcome of the instruction. -/
theorem exec_of_accessStop {base : Reg} {off : BitVec 12} {n : Nat} {e : AccessStop}
    (h : dataAccess i = some (base, off, n)) (he : accessStop config (effectiveAddress s base off) n = some e) :
    exec i s = dataStop e := by
  obtain ⟨w, rfl, ⟨rd, ext, _, h⟩ | ⟨v, _, h⟩⟩ := exec_dataAccess (s := s) h
  · rw [h, loadOp_eq, he]
  · rw [h, storeOp_eq, he]

/-- The shapes of a next state: a register and `pc`; `pc` alone; a CSR, a register and `pc`; the trap; bytes of Memory
and `pc`. -/
inductive Effect (i : Instr) (s : State) : State → Prop where
  | register (rd : Reg) (v p : Word) (hd : destReg i = some rd) (hc : destCsr i = none) (hs : isStore i = false)
      (he : i ≠ .ecall) (hp : isSequential i = true → p = s.pcPlus4) : Effect i s ((s.setX rd v).setPc p)
  | pcOnly (p : Word) (hd : destReg i = none) (hc : destCsr i = none) (hs : isStore i = false)
      (he : i ≠ .ecall) (hp : isSequential i = true → p = s.pcPlus4) : Effect i s (s.setPc p)
  | csr (rd : Reg) (k : CsrIdx) (v : Word) (hd : destReg i = some rd) (hc : destCsr i = some k)
      (hs : isStore i = false) (he : i ≠ .ecall) :
      Effect i s (((s.setCsr k v).setX rd (s.getCsr k)).setPc s.pcPlus4)
  | trap (he : i = .ecall) :
      Effect i s (((s.setCsr config.trapCauseCsr config.ecallCause).setRun .halted).setPc (trapTarget config s))
  | store (base : Reg) (off : BitVec 12) (bs : List Byte) (hd : destReg i = none) (hc : destCsr i = none)
      (hs : isStore i = true) (he : i ≠ .ecall) (ha : dataAccess i = some (base, off, bs.length))
      (hok : accessStop config (effectiveAddress s base off) bs.length = none) :
      Effect i s ((s.setMem (writeBytes s.mem (effectiveAddress s base off).toNat bs)).setPc s.pcPlus4)

theorem Effect.of_store {w : Width} {v : Word} {base : Reg} {off : BitVec 12} (hd : destReg i = none)
    (hc : destCsr i = none) (hs : isStore i = true) (he : i ≠ .ecall) (ha : dataAccess i = some (base, off, w.bytes))
    (h : storeOp config w (effectiveAddress s base off) v s = .next t) : Effect i s t := by
  obtain ⟨hok, rfl⟩ := storeOp_next.1 h
  exact .store base off _ hd hc hs he (by rw [length_bytesOf]; exact ha) (by rw [length_bytesOf]; exact hok)

/-- Every next state that an instruction answers has one of the shapes. -/
theorem exec_next (h : exec i s = .next t) : Effect i s t := by
  cases i
  case fence => obtain rfl := retire_next.1 h; exact .pcOnly _ rfl rfl rfl (by simp) fun _ => rfl
  case mret => obtain rfl := trapReturn_next.1 h; exact .pcOnly _ rfl rfl rfl (by simp) fun _ => rfl
  case ecall => obtain rfl := Host.Outcome.next.inj h; exact .trap rfl
  case beq | bne | blt | bge | bltu | bgeu =>
    obtain rfl := branchOp_next.1 h; exact .pcOnly _ rfl rfl rfl (by simp) fun h => by cases h
  case csrrw | csrrs | csrrc | csrrwi | csrrsi | csrrci =>
    obtain rfl := Host.Outcome.next.inj h; exact .csr _ _ _ rfl rfl rfl (by simp)
  case jal | jalr => obtain rfl := jumpOp_next.1 h; exact .register _ _ _ rfl rfl rfl (by simp) fun h => by cases h
  case lb | lh | lw | lbu | lhu =>
    obtain ⟨_, rfl⟩ := loadOp_next.1 h; exact .register _ _ _ rfl rfl rfl (by simp) fun _ => rfl
  case sb => exact .of_store (w := .byte) rfl rfl rfl (by simp) rfl h
  case sh => exact .of_store (w := .half) rfl rfl rfl (by simp) rfl h
  case sw => exact .of_store (w := .word) rfl rfl rfl (by simp) rfl h
  all_goals obtain rfl := retireReg_next.1 h; exact .register _ _ _ rfl rfl rfl (by simp) fun _ => rfl

end Sys2Proof.Machine
end

