-- ==== Sys2Proof/Laws/Pipeline.lean ====
section
/-! SUPPORT. What Decode records in its bundle, said once. -/

namespace Sys2Proof.Machine

variable {w : Word} {s : State} {d : DecodedInstr}

/-- There is a bundle exactly for the words that the opcode table classifies (40_pipeline R114). -/
theorem decodeStage_isSome : (decodeStage w s).isSome = (classify w).isSome := by
  unfold decodeStage
  cases classify w <;> rfl

/-- The bundle holds the six fields of the word, whatever its format (30_encoding R81). -/
theorem decodeStage_fields (h : decodeStage w s = some d) :
    d.opcode = fOpcode w ∧ d.rd = fRd w ∧ d.funct3 = fFunct3 w ∧ d.rs1 = fRs1 w ∧ d.rs2 = fRs2 w ∧
      d.funct7 = fFunct7 w := by
  unfold decodeStage at h
  split at h
  · cases h
  · cases h; exact ⟨rfl, rfl, rfl, rfl, rfl, rfl⟩

/-- The bundle's classification is the table's, and its register values are those of its register fields as the step
found them (R114, R115). -/
theorem decodeStage_operands (h : decodeStage w s = some d) :
    classify w = some d.op ∧ d.rs1Data = s.getX d.rs1 ∧ d.rs2Data = s.getX d.rs2 := by
  unfold decodeStage at h
  split at h
  · cases h
  · cases h; exact ⟨by assumption, rfl, rfl⟩

end Sys2Proof.Machine
end

