-- ==== Sys2Proof/Laws/Session.lean ====
section
/-! SUPPORT. What the host's calls make of a session that is over, said once. -/

namespace Sys2Proof.Machine

/-- A refused session answers every step with its refusal. -/
@[simp] theorem Session.step_refused (r : Refusal) : (Session.refused r).step = (.refused r, .refused r) := rfl

/-- A refused session answers every load with its refusal. -/
@[simp] theorem Session.load_refused (r : Refusal) (addr : Word) (bytes : List Byte) :
    (Session.refused r).load addr bytes = (.refused r, .refused r) := rfl

/-- There is nothing to inspect after a refusal (60_exceptions R265). -/
@[simp] theorem Session.state_refused (r : Refusal) : (Session.refused r).state = none := rfl

/-- There is nothing to inspect after a fault (R264). -/
@[simp] theorem Session.state_faulted (e : ErrorRecord) : (Session.faulted e).state = none := rfl

/-- A step that is answered with a refusal ends the session under the name of that refusal. -/
theorem Session.afterStep_ends {o : Outcome} {r : Refusal} (h : (Session.afterStep o).2 = .refused r) :
    (Session.afterStep o).1 = .refused r := by
  cases o with
  | next t => simp only [Session.afterStep] at h; split at h <;> cases h
  | fault f => cases h
  | refused q => cases h; rfl

end Sys2Proof.Machine
end

