-- ==== Sys2Proof/Laws/Step.lean ====
section
/-! SUPPORT. What a step does before it executes, said once: the instruction it runs, or the stop it answers. -/

namespace Sys2Proof.Machine

variable {s t : State} {i : Instr}

/-- The next instruction is the decoding of the word fetched in a Running state. -/
theorem nextInstr_eq_ok {c : Config} : nextInstr c s = .ok i ↔
    s.run = .running ∧ ∃ w, fetch c s = .ok w ∧ decodeWord w = .ok i := by
  unfold nextInstr
  cases s.run <;> simp
  cases fetch c s <;> simp
  rename_i w
  cases decodeWord w <;> simp

/-- Four bytes decode to what their word decodes to. -/
theorem decodeBytes_ok {bo : ByteOrder} {b0 b1 b2 b3 : Byte} :
    decodeBytes bo [b0, b1, b2, b3] = .ok (i, []) ↔ decodeWord (valueOf bo [b0, b1, b2, b3]) = .ok i := by
  simp only [decodeBytes]
  cases decodeWord (valueOf bo [b0, b1, b2, b3]) <;> simp

theorem decodeBytes_error {bo : ByteOrder} {b0 b1 b2 b3 : Byte} {e : DecodeError} :
    decodeBytes bo [b0, b1, b2, b3] = .error e ↔ decodeWord (valueOf bo [b0, b1, b2, b3]) = .error e := by
  simp only [decodeBytes]
  cases decodeWord (valueOf bo [b0, b1, b2, b3]) <;> simp

theorem step_eq_exec (h : nextInstr config s = .ok i) : step s = exec i s := by
  simp [step, h]

theorem Stop.outcome_ne_next (e : Stop) : e.outcome ≠ .next t := by
  cases e <;> simp [Stop.outcome]

/-- All a step that answers a next state says. -/
theorem step_next_inv (h : step s = .next t) :
    s.run = .running ∧ ∃ w i, fetch config s = .ok w ∧ decodeWord w = .ok i ∧ exec i s = .next t := by
  unfold step at h
  cases hn : nextInstr config s with
  | error e => rw [hn] at h; exact absurd h (Stop.outcome_ne_next e)
  | ok i =>
    rw [hn] at h
    obtain ⟨hr, w, hf, hd⟩ := nextInstr_eq_ok.1 hn
    exact ⟨hr, w, i, hf, hd, h⟩

/-- The word that `withFetchWord` stores is the word a step fetches, where a fetch at `pc` succeeds. -/
theorem fetch_storeFetchWord {c : Config} (w : Word) (h : accessStop c s.pc 4 = none) :
    fetch c (storeFetchWord c s w) = .ok w := by
  have hw := memWrite_eq_ok (m := s.mem) (v := w) (w := .word) h
  have hr := readBytes_writeBytes s.mem s.pc.toNat (bytesOf c.byteOrder .word w)
  rw [length_bytesOf] at hr
  simp only [storeFetchWord, hw, fetch]
  rw [State.setMem_mem, State.setMem_pc, memRead_eq_ok (w := .word) h, hr, valueOf_bytesOf, truncate_word]

end Sys2Proof.Machine
end

