-- ==== Sys2Proof/Tests/Slice0.lean ====
section
/-! SUPPORT. Tests: ill-formed terms refused, words written out from the encodings of the spec, single steps with the
results of spec/95_test_vectors.md (the name of a vector stands before its test), and one witness for the hypotheses of
every statement. -/

set_option Elab.async false

namespace Sys2Proof.Tests

open Sys2Proof.Machine

/-! ## Well-formedness: each check refuses a term that no encoding holds -/

theorem test_wf_odd_branch_offset : (Instr.beq 1 2 7).wf = false := by decide +kernel
theorem test_wf_odd_jump_offset : (Instr.jal 1 2049).wf = false := by decide +kernel
theorem test_wf_even_offsets : (Instr.bgeu 1 2 4094).wf = true ∧ (Instr.jal 0 2).wf = true := by decide +kernel

/-! ## Decoding: a word for every constructor, the first of each format bit by bit (30_encoding R90, R92, R101) -/

theorem test_decode_upper :
    decodeWord 0b00010010001101000101_00101_0110111#32 = .ok (.lui 5 0x12345) ∧
    decodeWord 0x00001317#32 = .ok (.auipc 6 1) := by decide +kernel

theorem test_decode_jumps :
    decodeWord 0b0_0000000000_1_00000000_00001_1101111#32 = .ok (.jal 1 2048) ∧
    decodeWord 0xFFDFF06F#32 = .ok (.jal 0 (BitVec.ofInt 21 (-4))) ∧
    decodeWord 0b000000000010_00001_000_00101_1100111#32 = .ok (.jalr 5 1 2) := by decide +kernel

theorem test_decode_branches :
    decodeWord 0b0_000000_00010_00001_000_0100_0_1100011#32 = .ok (.beq 1 2 8) ∧
    decodeWord 0xFE209EE3#32 = .ok (.bne 1 2 (BitVec.ofInt 13 (-4))) ∧
    decodeWord 0x0020C463#32 = .ok (.blt 1 2 8) ∧
    decodeWord 0x0020D463#32 = .ok (.bge 1 2 8) ∧
    decodeWord 0x0020E463#32 = .ok (.bltu 1 2 8) ∧
    decodeWord 0x0020F463#32 = .ok (.bgeu 1 2 8) ∧
    decodeWord 0x7E000FE3#32 = .ok (.beq 0 0 4094) := by decide +kernel

theorem test_decode_loads :
    decodeWord 0b111111111111_00010_000_00101_0000011#32 = .ok (.lb 5 2 0xFFF) ∧
    decodeWord 0x00109283#32 = .ok (.lh 5 1 1) ∧
    decodeWord 0xFFC0A283#32 = .ok (.lw 5 1 0xFFC) ∧
    decodeWord 0x0010C283#32 = .ok (.lbu 5 1 1) ∧
    decodeWord 0xFFE15283#32 = .ok (.lhu 5 2 0xFFE) := by decide +kernel

theorem test_decode_stores :
    decodeWord 0b0111111_00011_00100_000_11111_0100011#32 = .ok (.sb 4 3 0x7FF) ∧
    decodeWord 0x00309123#32 = .ok (.sh 1 3 2) ∧
    decodeWord 0xFE312E23#32 = .ok (.sw 2 3 0xFFC) := by decide +kernel

theorem test_decode_immediate :
    decodeWord 0b111111111010_00001_000_00010_0010011#32 = .ok (.addi 2 1 0xFFA) ∧
    decodeWord 0xFFF0A113#32 = .ok (.slti 2 1 0xFFF) ∧
    decodeWord 0x0010B113#32 = .ok (.sltiu 2 1 1) ∧
    decodeWord 0xFFF0C113#32 = .ok (.xori 2 1 0xFFF) ∧
    decodeWord 0x8000E113#32 = .ok (.ori 2 1 0x800) ∧
    decodeWord 0xF000F113#32 = .ok (.andi 2 1 0xF00) ∧
    decodeWord 0b0000000_11110_00001_001_00010_0010011#32 = .ok (.slli 2 1 30) ∧
    decodeWord 0x0040D113#32 = .ok (.srli 2 1 4) ∧
    decodeWord 0x4040D113#32 = .ok (.srai 2 1 4) := by decide +kernel

theorem test_decode_register :
    decodeWord 0b0000000_00010_00001_000_00011_0110011#32 = .ok (.add 3 1 2) ∧
    decodeWord 0x402081B3#32 = .ok (.sub 3 1 2) ∧
    decodeWord 0x002091B3#32 = .ok (.sll 3 1 2) ∧
    decodeWord 0x0020A1B3#32 = .ok (.slt 3 1 2) ∧
    decodeWord 0x0020B1B3#32 = .ok (.sltu 3 1 2) ∧
    decodeWord 0x0020C1B3#32 = .ok (.xor 3 1 2) ∧
    decodeWord 0x0020D1B3#32 = .ok (.srl 3 1 2) ∧
    decodeWord 0x4020D1B3#32 = .ok (.sra 3 1 2) ∧
    decodeWord 0x0020E1B3#32 = .ok (.or 3 1 2) ∧
    decodeWord 0x0020F1B3#32 = .ok (.and 3 1 2) := by decide +kernel

theorem test_decode_csr :
    decodeWord 0b001100000101_00010_001_00001_1110011#32 = .ok (.csrrw 1 2 0x305) ∧
    decodeWord 0x300221F3#32 = .ok (.csrrs 3 4 0x300) ∧
    decodeWord 0x300231F3#32 = .ok (.csrrc 3 4 0x300) ∧
    decodeWord 0b001101000010_00101_101_00001_1110011#32 = .ok (.csrrwi 1 5 0x342) ∧
    decodeWord 0x342FE1F3#32 = .ok (.csrrsi 3 31 0x342) ∧
    decodeWord 0x3420F1F3#32 = .ok (.csrrci 3 1 0x342) := by decide +kernel

theorem test_decode_system :
    decodeWord 0b000000000000_00000_000_00000_1110011#32 = .ok .ecall ∧
    decodeWord 0b001100000010_00000_000_00000_1110011#32 = .ok .mret ∧
    decodeWord 0b0000_0011_0011_00000_000_00000_0001111#32 = .ok (.fence 0 3 3 0 0) ∧
    decodeWord 0xFFFF800F#32 = .ok (.fence 15 15 15 31 0) ∧
    decodeWord 0x00000F8F#32 = .ok (.fence 0 0 0 0 31) := by decide +kernel

/-- Vectors D1 to D20: no row matches. -/
theorem test_decode_unmatched : [0x00000000#32, 0xFFFFFFFF#32, 0x00100073#32, 0x10500073#32, 0x10200073#32,
    0x30200873#32, 0x00000473#32, 0x0000100F#32, 0x02208033#32, 0x02009093#32, 0x40001093#32, 0x40004033#32, 0x00001067#32,
    0x00002063#32, 0x00003003#32, 0x00003023#32, 0x00004073#32, 0x0000002F#32, 0x0000001B#32, 0x00000001#32].map matchInstr =
    List.replicate 20 none := by decide +kernel

theorem test_decode_too_short : decodeBytes .big [0x00, 0x10, 0x00] = .error .tooShort := by decide +kernel

/-- Vector H5: the same bytes in the two orders. -/
theorem test_decode_byte_orders :
    decodeBytes .big [0x00, 0x10, 0x00, 0x93] = .ok (.addi 1 0 1, []) ∧
    decodeBytes .little [0x00, 0x10, 0x00, 0x93] = .error .unmatchedOpcode ∧
    decodeBytes .little [0x93, 0x00, 0x10, 0x00, 0x55] = .ok (.addi 1 0 1, [0x55]) := by decide +kernel

/-! ## Single steps -/

/-- The reset state with `pc`, registers, CSRs and bytes set. -/
def start (pc : Word) (regs : List (Reg × Word)) (csrs : List (CsrIdx × Word)) (bytes : List (Nat × Byte)) : State :=
  let s := regs.foldl (fun s p => s.setX p.1 p.2) (State.reset.setPc pc)
  let s := csrs.foldl (fun s p => s.setCsr p.1 p.2) s
  s.setMem (bytes.foldl (fun m p => SparseMap.set m p.1 p.2) s.mem)

/-- The start of an ALU vector: `pc` at the base, registers set. -/
def regsAt (regs : List (Reg × Word)) : State := start 0x80000000#32 regs [] []

/-- The step that fetches `w`. -/
def stepOn (w : Word) (s : State) : Outcome := step (storeFetchWord config s w)

/-- The same step by stages, little-endian. -/
def stepLittle (w : Word) (s : State) : Outcome :=
  pipelineStep { config with byteOrder := .little } (storeFetchWord { config with byteOrder := .little } s w)

/-- `x[r]` and `pc` after a step. -/
def regAfter (r : Reg) : Outcome → Option (Word × Word)
  | .next t => some (t.getX r, t.pc)
  | .fault _ | .refused _ => none

def pcAfter : Outcome → Option Word
  | .next t => some t.pc
  | .fault _ | .refused _ => none

/-- `x[r]` and `csr[k]` after a step. -/
def csrAfter (r : Reg) (k : CsrIdx) : Outcome → Option (Word × Word)
  | .next t => some (t.getX r, t.getCsr k)
  | .fault _ | .refused _ => none

/-- `n` bytes from `a` after a step. -/
def bytesAfter (a n : Nat) : Outcome → Option (List Byte)
  | .next t => some (readBytes t.mem a n)
  | .fault _ | .refused _ => none

def faultOf : Outcome → Option Fault
  | .fault f => some f
  | .next _ | .refused _ => none

def refusalOf : Outcome → Option Refusal
  | .refused r => some r
  | .next _ | .fault _ => none

/-! ### Integer ALU -/

/-- A1. -/
theorem test_add_wraps : regAfter 3 (stepOn 0x002081B3#32 (regsAt [(1, 0xFFFFFFFF#32), (2, 1#32)])) =
    some (0#32, 0x80000004#32) := by decide +kernel
/-- A3. -/
theorem test_add_to_x0 : regAfter 0 (stepOn 0x00208033#32 (regsAt [(1, 5#32), (2, 6#32)])) =
    some (0#32, 0x80000004#32) := by decide +kernel
/-- A4. -/
theorem test_sub_borrows : regAfter 3 (stepOn 0x402081B3#32 (regsAt [(1, 0#32), (2, 1#32)])) =
    some (0xFFFFFFFF#32, 0x80000004#32) := by decide +kernel
/-- A6. -/
theorem test_sub_source_is_destination : regAfter 3 (stepOn 0x403181B3#32 (regsAt [(3, 0x1234#32)])) =
    some (0#32, 0x80000004#32) := by decide +kernel
/-- A7. -/
theorem test_and : regAfter 3 (stepOn 0x0020F1B3#32 (regsAt [(1, 0xF0F0F0F0#32), (2, 0xFF00FF00#32)])) =
    some (0xF000F000#32, 0x80000004#32) := by decide +kernel
/-- R144's example. -/
theorem test_or : regAfter 3 (stepOn 0x0020E1B3#32 (regsAt [(1, 0xF0F0F0F0#32), (2, 0xFF00FF00#32)])) =
    some (0xFFF0FFF0#32, 0x80000004#32) := by decide +kernel
/-- A9. -/
theorem test_xor : regAfter 3 (stepOn 0x0020C1B3#32 (regsAt [(1, 0xFFFFFFFF#32), (2, 0x12345678#32)])) =
    some (0xEDCBA987#32, 0x80000004#32) := by decide +kernel
/-- A10. -/
theorem test_addi_wraps : regAfter 1 (stepOn 0x00108093#32 (regsAt [(1, 0xFFFFFFFF#32)])) =
    some (0#32, 0x80000004#32) := by decide +kernel
/-- A11. -/
theorem test_addi_negative : regAfter 3 (stepOn 0x80008193#32 (regsAt [(1, 0#32)])) =
    some (0xFFFFF800#32, 0x80000004#32) := by decide +kernel
/-- A14. -/
theorem test_andi_sign_extends : regAfter 3 (stepOn 0x8000F193#32 (regsAt [(1, 0x12345FFF#32)])) =
    some (0x12345800#32, 0x80000004#32) := by decide +kernel
/-- A15. -/
theorem test_ori : regAfter 3 (stepOn 0x7FF0E193#32 (regsAt [(1, 0x80000000#32)])) =
    some (0x800007FF#32, 0x80000004#32) := by decide +kernel
/-- A16. -/
theorem test_xori_sign_extends : regAfter 3 (stepOn 0xFFF0C193#32 (regsAt [(1, 0x0000FFFF#32)])) =
    some (0xFFFF0000#32, 0x80000004#32) := by decide +kernel
/-- A18. -/
theorem test_sll_by_32 : regAfter 3 (stepOn 0x002091B3#32 (regsAt [(1, 1#32), (2, 0x20#32)])) =
    some (1#32, 0x80000004#32) := by decide +kernel
/-- A19. -/
theorem test_sll_high_bits_ignored : regAfter 3 (stepOn 0x002091B3#32 (regsAt [(1, 1#32), (2, 0xFFFFFFE1#32)])) =
    some (2#32, 0x80000004#32) := by decide +kernel
/-- A20. -/
theorem test_srl_by_31 : regAfter 3 (stepOn 0x0020D1B3#32 (regsAt [(1, 0x80000000#32), (2, 0x1F#32)])) =
    some (1#32, 0x80000004#32) := by decide +kernel
/-- A21. -/
theorem test_sra_negative : regAfter 3 (stepOn 0x4020D1B3#32 (regsAt [(1, 0x80000000#32), (2, 0x1F#32)])) =
    some (0xFFFFFFFF#32, 0x80000004#32) := by decide +kernel
/-- A22. -/
theorem test_sra_positive : regAfter 3 (stepOn 0x4020D1B3#32 (regsAt [(1, 0x7FFFFFFF#32), (2, 0x1F#32)])) =
    some (0#32, 0x80000004#32) := by decide +kernel
/-- A24. -/
theorem test_slli_by_31 : regAfter 3 (stepOn 0x01F09193#32 (regsAt [(1, 3#32)])) =
    some (0x80000000#32, 0x80000004#32) := by decide +kernel
/-- A38. -/
theorem test_srli_by_31 : regAfter 3 (stepOn 0x01F0D193#32 (regsAt [(1, 0xFFFFFFFF#32)])) =
    some (1#32, 0x80000004#32) := by decide +kernel
/-- A26. -/
theorem test_srai : regAfter 3 (stepOn 0x4010D193#32 (regsAt [(1, 0x80000001#32)])) =
    some (0xC0000000#32, 0x80000004#32) := by decide +kernel
/-- A29. -/
theorem test_slt_signed : regAfter 3 (stepOn 0x0020A1B3#32 (regsAt [(1, 0x80000000#32), (2, 0x7FFFFFFF#32)])) =
    some (1#32, 0x80000004#32) := by decide +kernel
/-- A30. -/
theorem test_slt_equal : regAfter 3 (stepOn 0x0010A1B3#32 (regsAt [(1, 5#32)])) =
    some (0#32, 0x80000004#32) := by decide +kernel
/-- A28. -/
theorem test_sltu_unsigned : regAfter 3 (stepOn 0x0020B1B3#32 (regsAt [(1, 0xFFFFFFFF#32), (2, 1#32)])) =
    some (0#32, 0x80000004#32) := by decide +kernel
/-- A37. -/
theorem test_sltu_less : regAfter 3 (stepOn 0x001031B3#32 (regsAt [(1, 1#32)])) =
    some (1#32, 0x80000004#32) := by decide +kernel
/-- A31. -/
theorem test_slti : regAfter 3 (stepOn 0x8000A193#32 (regsAt [(1, 0x80000000#32)])) =
    some (1#32, 0x80000004#32) := by decide +kernel
/-- A35. -/
theorem test_sltiu_sign_extends : regAfter 3 (stepOn 0xFFF0B193#32 (regsAt [(1, 0xFFFFFFFE#32)])) =
    some (1#32, 0x80000004#32) := by decide +kernel
/-- A36. -/
theorem test_sltiu_equal : regAfter 3 (stepOn 0xFFF0B193#32 (regsAt [(1, 0xFFFFFFFF#32)])) =
    some (0#32, 0x80000004#32) := by decide +kernel

/-! ### Upper immediates and jumps -/

/-- U2. -/
theorem test_lui : regAfter 5 (stepOn 0xFFFFF2B7#32 (regsAt [])) =
    some (0xFFFFF000#32, 0x80000004#32) := by decide +kernel
/-- U6. -/
theorem test_auipc_wraps : regAfter 6 (stepOn 0x80000317#32 (start 0x80000010#32 [] [] [])) =
    some (0x10#32, 0x80000014#32) := by decide +kernel
/-- J10. -/
theorem test_jal_longest_forward : regAfter 7 (stepOn 0x7FFFF3EF#32 (start 0x80000000#32 [] [] [])) =
    some (0x80000004#32, 0x800FFFFE#32) := by decide +kernel
/-- J9. -/
theorem test_jal_longest_backward : regAfter 0 (stepOn 0x8000006F#32 (start 0x80000000#32 [] [] [])) =
    some (0#32, 0x7FF00000#32) := by decide +kernel
/-- J4. -/
theorem test_jalr_source_is_destination : regAfter 1 (stepOn 0x000080E7#32 (start 0x80000010#32 [(1, 0x80000200#32)] [] [])) =
    some (0x80000014#32, 0x80000200#32) := by decide +kernel
/-- J5. -/
theorem test_jalr_clears_bit_0 : regAfter 5 (stepOn 0x002082E7#32 (start 0x80000010#32 [(1, 0x80000101#32)] [] [])) =
    some (0x80000014#32, 0x80000102#32) := by decide +kernel

/-! ### Branches -/

/-- B17. -/
theorem test_beq_taken : pcAfter (stepOn 0xFE000CE3#32 (start 0x80000004#32 [] [] [])) = some 0x7FFFFFFC#32 := by decide +kernel
/-- B2. -/
theorem test_beq_not_taken : pcAfter (stepOn 0x00208463#32 (start 0x80000010#32 [(1, 7#32), (2, 8#32)] [] [])) = some 0x80000014#32 := by decide +kernel
/-- B13. -/
theorem test_bne_taken : pcAfter (stepOn 0x80209063#32 (start 0x80002000#32 [(1, 1#32)] [] [])) = some 0x80001000#32 := by decide +kernel
/-- B4. -/
theorem test_bne_not_taken : pcAfter (stepOn 0xFE209EE3#32 (start 0x80000010#32 [(1, 7#32), (2, 7#32)] [] [])) = some 0x80000014#32 := by decide +kernel
/-- B5. -/
theorem test_blt_taken : pcAfter (stepOn 0x0020C463#32 (start 0x80000010#32 [(1, 0xFFFFFFFF#32), (2, 1#32)] [] [])) = some 0x80000018#32 := by decide +kernel
/-- B6. -/
theorem test_blt_not_taken : pcAfter (stepOn 0x0020C463#32 (start 0x80000010#32 [(1, 1#32), (2, 0xFFFFFFFF#32)] [] [])) = some 0x80000014#32 := by decide +kernel
/-- B7. -/
theorem test_bge_equal_taken : pcAfter (stepOn 0x0020D463#32 (start 0x80000010#32 [(1, 5#32), (2, 5#32)] [] [])) = some 0x80000018#32 := by decide +kernel
/-- B8. -/
theorem test_bge_not_taken : pcAfter (stepOn 0x0020D463#32 (start 0x80000010#32 [(1, 0x80000000#32), (2, 0x7FFFFFFF#32)] [] [])) = some 0x80000014#32 := by decide +kernel
/-- B9. -/
theorem test_bltu_taken : pcAfter (stepOn 0x0020E463#32 (start 0x80000010#32 [(1, 1#32), (2, 0xFFFFFFFF#32)] [] [])) = some 0x80000018#32 := by decide +kernel
/-- B10. -/
theorem test_bltu_not_taken : pcAfter (stepOn 0x0020E463#32 (start 0x80000010#32 [(1, 0xFFFFFFFF#32), (2, 1#32)] [] [])) = some 0x80000014#32 := by decide +kernel
/-- B11. -/
theorem test_bgeu_taken : pcAfter (stepOn 0x0020F463#32 (start 0x80000010#32 [(1, 0xFFFFFFFF#32), (2, 1#32)] [] [])) = some 0x80000018#32 := by decide +kernel
/-- B12. -/
theorem test_bgeu_not_taken : pcAfter (stepOn 0x0020F463#32 (start 0x80000010#32 [(1, 0#32), (2, 1#32)] [] [])) = some 0x80000014#32 := by decide +kernel

/-! ### Loads and stores -/

/-- `x1 = 0x80000100` and the bytes `81 82 83 84` there (95_test_vectors, 2.3). -/
def loadStart : State :=
  start 0x80000000#32 [(1, 0x80000100#32), (3, 0xAABBCCDD#32)] []
    [(0x80000100, 0x81), (0x80000101, 0x82), (0x80000102, 0x83), (0x80000103, 0x84)]

/-- M1. -/
theorem test_lb_sign : regAfter 5 (stepOn 0x00008283#32 loadStart) = some (0xFFFFFF81#32, 0x80000004#32) := by decide +kernel
/-- M17. -/
theorem test_lb_above_window : faultOf (stepOn 0x00010283#32 State.reset) = some (.dataOutOfBounds .memory) := by decide +kernel
/-- M11. -/
theorem test_lbu : regAfter 5 (stepOn 0x0010C283#32 loadStart) = some (0x82#32, 0x80000004#32) := by decide +kernel
/-- M6, and its result under `Little`. -/
theorem test_lh_sign : regAfter 5 (stepOn 0x00209283#32 loadStart) = some (0xFFFF8384#32, 0x80000004#32) ∧
    regAfter 5 (stepLittle 0x00209283#32 loadStart) = some (0xFFFF8483#32, 0x80000004#32) := by decide +kernel
/-- M9. -/
theorem test_lh_misaligned : refusalOf (stepOn 0x00109283#32 loadStart) = some .misalignedData := by decide +kernel
/-- M24: the last halfword of the window. -/
theorem test_lhu_last : regAfter 5 (stepOn 0xFFE15283#32
    (start 0x80000000#32 [] [] [(0x800FFFFE, 0xFE), (0x800FFFFF, 0xDC)])) = some (0xFEDC#32, 0x80000004#32) := by decide +kernel
/-- M7, and its result under `Little`. -/
theorem test_lw : regAfter 5 (stepOn 0x0000A283#32 loadStart) = some (0x81828384#32, 0x80000004#32) ∧
    regAfter 5 (stepLittle 0x0000A283#32 loadStart) = some (0x84838281#32, 0x80000004#32) := by decide +kernel
/-- M22. -/
theorem test_lw_below_window : faultOf (stepOn 0x00002283#32 State.reset) = some (.dataOutOfBounds .bus) := by decide +kernel
/-- M12. -/
theorem test_sb : bytesAfter 0x80000100 4 (stepOn 0x003080A3#32 loadStart) = some [0x81, 0xDD, 0x83, 0x84] := by decide +kernel
/-- M14, and its result under `Little`. -/
theorem test_sh : bytesAfter 0x80000100 4 (stepOn 0x00309123#32 loadStart) = some [0x81, 0x82, 0xCC, 0xDD] ∧
    bytesAfter 0x80000100 4 (stepLittle 0x00309123#32 loadStart) = some [0x81, 0x82, 0xDD, 0xCC] := by decide +kernel
/-- M23. -/
theorem test_sh_misaligned : refusalOf (stepOn 0x003090A3#32 loadStart) = some .misalignedData := by decide +kernel
/-- M13 with the start of M12, and the order of its bytes under `Little`. -/
theorem test_sw : bytesAfter 0x80000100 4 (stepOn 0x0030A023#32 loadStart) = some [0xAA, 0xBB, 0xCC, 0xDD] ∧
    bytesAfter 0x80000100 4 (stepLittle 0x0030A023#32 loadStart) = some [0xDD, 0xCC, 0xBB, 0xAA] := by decide +kernel
/-- M19: the last word of the window. -/
theorem test_sw_last : bytesAfter 0x800FFFFC 4 (stepOn 0xFE312E23#32 (regsAt [(3, 0x55#32)])) =
    some [0x00, 0x00, 0x00, 0x55] := by decide +kernel

/-! ### CSR and system instructions -/

/-- C2: the source is read before either is written. -/
theorem test_csrrw_swaps : csrAfter 1 0x305 (stepOn 0x305090F3#32
    (start 0x80000000#32 [(1, 0x80000400#32)] [(0x305, 0x11111111#32)] [])) =
    some (0x11111111#32, 0x80000400#32) := by decide +kernel
/-- C12: a standard read-only index is plain storage. -/
theorem test_csrrw_any_index : csrAfter 5 0xC00 (stepOn 0xC00092F3#32 (regsAt [(1, 0x42#32)])) =
    some (0#32, 0x42#32) := by decide +kernel
/-- C4. -/
theorem test_csrrs : csrAfter 3 0x300 (stepOn 0x300221F3#32
    (start 0x80000000#32 [(4, 0xF#32)] [(0x300, 0x180#32)] [])) = some (0x180#32, 0x18F#32) := by decide +kernel
/-- C6. -/
theorem test_csrrc : csrAfter 3 0x300 (stepOn 0x300231F3#32
    (start 0x80000000#32 [(4, 0x81#32)] [(0x300, 0x181#32)] [])) = some (0x181#32, 0x100#32) := by decide +kernel
/-- C7. -/
theorem test_csrrwi : csrAfter 1 0x342 (stepOn 0x3422D0F3#32
    (start 0x80000000#32 [] [(0x342, 0xFFFFFFFF#32)] [])) = some (0xFFFFFFFF#32, 5#32) := by decide +kernel
/-- C8. -/
theorem test_csrrsi : csrAfter 3 0x342 (stepOn 0x342FE1F3#32
    (start 0x80000000#32 [] [(0x342, 0x100#32)] [])) = some (0x100#32, 0x11F#32) := by decide +kernel
/-- C9. -/
theorem test_csrrci : csrAfter 3 0x342 (stepOn 0x3420F1F3#32
    (start 0x80000000#32 [] [(0x342, 3#32)] [])) = some (3#32, 2#32) := by decide +kernel
/-- Y1: the whole of `csr[0x305]` goes to `pc`, and the run is Halted. -/
theorem test_ecall : (match stepOn 0x00000073#32 (start 0x80000020#32 [] [(0x305, 0xDEADBEEF#32)] []) with
    | .next t => some (t.pc, t.run) | .fault _ | .refused _ => none) = some (0xDEADBEEF#32, .halted) := by decide +kernel
/-- Y3: the open value replaces what the trap-cause register held. -/
theorem test_ecall_cause (v : Word) : (match execEcall (State.reset.setCsr 0x342 v) with
    | .next t => some (t.getCsr 0x342) | .fault _ | .refused _ => none) = some config.ecallCause :=
  congrArg some (State.getCsr_setCsr_same _ _ _)
/-- Y4. -/
theorem test_mret : pcAfter (stepOn 0x30200073#32 (start 0x80000020#32 [] [(0x341, 0x80000100#32)] [])) =
    some 0x80000024#32 := by decide +kernel
/-- Y7: FENCE with `rd = 31` writes no register. -/
theorem test_fence_writes_nothing : regAfter 31 (stepOn 0x00000F8F#32 (start 0x80000020#32 [(31, 9#32)] [] [])) =
    some (9#32, 0x80000024#32) := by decide +kernel

/-! ### Fetch, and the host's load -/

/-- F1, F2, F3 and F5, F6. -/
theorem test_fetch_stops :
    faultOf (step (State.reset.setPc 0x7FFFFFFC#32)) = some (.fetchOutOfBounds .bus) ∧
    faultOf (step (State.reset.setPc 0x80100000#32)) = some (.fetchOutOfBounds .memory) ∧
    refusalOf (step (State.reset.setPc 0x80000002#32)) = some .misalignedFetch ∧
    refusalOf (step (State.reset.setPc 0x800FFFFE#32)) = some .misalignedFetch ∧
    faultOf (step (State.reset.setPc 0x00000000#32)) = some (.fetchOutOfBounds .bus) := by decide +kernel
/-- F4: the last word of the window. -/
theorem test_fetch_last_word : pcAfter (stepOn 0x00000013#32 (State.reset.setPc 0x800FFFFC#32)) =
    some 0x80100000#32 := by decide +kernel
/-- F3 and F5 under `Bytewise`. -/
theorem test_fetch_bytewise :
    pcAfter (pipelineStep { config with misaligned := .bytewise } (start 0x80000002#32 [] [] [(0x80000005, 0x13)])) =
      some 0x80000006#32 ∧
    faultOf (pipelineStep { config with misaligned := .bytewise } (State.reset.setPc 0x800FFFFE#32)) =
      some (.fetchOutOfBounds .memory) := by decide +kernel
/-- The order of R266: an all-zero word in an aligned place is unmatched. -/
theorem test_unmatched_word : faultOf (step State.reset) = some .unmatchedOpcode := by decide +kernel

/-- H1, H3, H6. -/
theorem test_load_fails :
    (Session.construct.load 0x800FFFFE#32 [0, 0, 0, 0]).2 = .error ⟨.load, some .memory, .addressOutOfBounds⟩ ∧
    (Session.construct.load 0x7FFFFFFF#32 [0]).2 = .error ⟨.load, some .bus, .addressOutOfBounds⟩ ∧
    (Session.construct.load 0x80100000#32 []).2 = .refused .emptyLoad := by decide +kernel
/-- H2. -/
theorem test_load_last : (Session.construct.load 0x800FFFFC#32 [1, 2, 3, 4]).1.readMem 0x800FFFFC#32 .word =
    some (.ok 0x01020304#32) := by decide +kernel
/-- H5, and that a load after the first step is refused (decision D14). -/
theorem test_load_then_step :
    let ran := (Session.construct.load 0x80000000#32 [0x00, 0x10, 0x00, 0x93]).1.step
    ran.2 = .ordinary ∧ ran.1.readX 1 = some 1#32 ∧ ran.1.readPc = some 0x80000004#32 ∧
      ran.1.load 0x80000000#32 [0] = (.refused .loadAfterFirstStep, .refused .loadAfterFirstStep) := by decide +kernel

/-- R81: SW x5, -4(x2) is in S format and its bundle still holds all six fields. -/
theorem test_bundle_holds_fields : (decodeStage 0xFE512E23#32 State.reset).map
    (fun d => (d.opcode, d.rd, d.funct3, d.rs1, d.rs2, d.funct7)) =
    some (0x23#7, 0x1C#5, 2#3, 2#5, 5#5, 0x7F#7) := by decide +kernel

/-! ### Assembler text and pseudo-instructions (R99, R100, R27) -/

theorem test_asm : asm (.sw 2 2 0xFFC) = "sw x2, -4(x2)" ∧ asm (.fence 0 3 3 0 0) = "fence rw, rw" ∧
    asm (.csrrw 1 2 0x305) = "csrrw x1, 0x305, x2" ∧ abiName 31 = "t6" ∧ abiName 2 = "sp" := by decide +kernel
theorem test_li_rounds_up : expand (.li 4 0x80000FFF#32) = [.lui 4 0x80001, .addi 4 4 0xFFF] ∧
    expand (.li 4 0xFFFFF800#32) = [.addi 4 0 0x800] := by decide +kernel

/-! ## Witnesses: for every statement with hypotheses, a state and operands that meet them, each clause at a boundary -/

theorem witness_RegisterFileReadAfterWrite : (31#5 : Reg) ≠ 0#5 ∧ (30#5 : Reg) ≠ 31#5 := by decide +kernel
theorem witness_CsrReadAfterWrite : (0xFFF#12 : CsrIdx) ≠ 0xFFE#12 := by decide +kernel
theorem witness_ResetValues : (1#5 : Reg) ≠ 2#5 ∧ (3#5 : Reg) ≠ 2#5 := by decide +kernel

/-- An access at the first and at the last place of each width, and a stop of each kind beside them. -/
theorem witness_accesses :
    (Accessible config 0x80000000#32 1 ∧ Accessible config 0x800FFFFF#32 1) ∧
    (Accessible config 0x80000000#32 2 ∧ Accessible config 0x800FFFFE#32 2) ∧
    (Accessible config 0x80000000#32 4 ∧ Accessible config 0x800FFFFC#32 4) ∧
    (config.misaligned = .refuse ∧ (0x80000001#32).toNat % 2 ≠ 0 ∧ (0x80000003#32).toNat % 4 ≠ 0) ∧
    ((0x7FFFFFFF#32).toNat % 1 = 0 ∧ (0x7FFFFFFF#32).toNat < config.dramBase.toNat) ∧
    ((0x7FFFFFFC#32).toNat % 4 = 0 ∧ (0x7FFFFFFC#32).toNat < config.dramBase.toNat) ∧
    ((0x80100000#32).toNat % 4 = 0 ∧ config.dramBase.toNat ≤ (0x80100000#32).toNat ∧
      config.dramBase.toNat + config.dramSize < (0x80100000#32).toNat + 1) := by decide +kernel

theorem witness_MemReadValue : Accessible config 0x800FFFFC#32 (Width.bytes .word) := by decide +kernel
theorem witness_MemWriteBytes : Accessible { config with misaligned := .bytewise } 0x800FFFFD#32 (Width.bytes .half) := by
  decide +kernel
theorem witness_MemoryRoundTrip : Accessible { config with byteOrder := .little } 0x80000000#32 (Width.bytes .word) := by
  decide +kernel
theorem witness_DecodeOfEncode : (Instr.bgeu 31 31 4094).wf = true ∧ (Instr.jal 31 2).wf = true := by decide +kernel
theorem witness_EncodeOfDecode : decodeWord 0xFFFF800F#32 = .ok (.fence 15 15 15 31 0) := by decide +kernel
theorem witness_OpcodeTableAgreesWithDecoder : classify 0x00000001#32 = none ∧ decodeWord 0x30200073#32 = .ok .mret ∧
    (⟨.ecall, 0xFFFFFFFF#32, 0x00000073#32⟩ : OpcodeRow).matchesWord 0x00000073#32 = true := by decide +kernel
theorem witness_UnmatchedWords :
    (0x00000001#32).extractLsb' 0 2 ≠ 3#2 ∧ fOpcode 0x0000002F#32 = 0x2F#7 ∧
    (fOpcode 0x00001067#32 = 0x67#7 ∧ fFunct3 0x00001067#32 ≠ 0#3) ∧
    (fOpcode 0x00002063#32 = 0x63#7 ∧ fFunct3 0x00002063#32 = 2#3) ∧
    (fOpcode 0x00007003#32 = 0x03#7 ∧ fFunct3 0x00007003#32 = 7#3) ∧
    (fOpcode 0x00003023#32 = 0x23#7 ∧ fFunct3 0x00003023#32 = 3#3) ∧
    (fOpcode 0x0000100F#32 = 0x0F#7 ∧ fFunct3 0x0000100F#32 ≠ 0#3) ∧
    (fOpcode 0x02208033#32 = 0x33#7 ∧ fFunct7 0x02208033#32 ∉ [0x00#7, 0x20#7]) ∧
    (fOpcode 0x40004033#32 = 0x33#7 ∧ fFunct7 0x40004033#32 = 0x20#7 ∧ fFunct3 0x40004033#32 ∉ [0#3, 5#3]) ∧
    (fOpcode 0x40001093#32 = 0x13#7 ∧ fFunct3 0x40001093#32 = 1#3 ∧ fFunct7 0x40001093#32 ≠ 0x00#7) ∧
    (fOpcode 0x02005093#32 = 0x13#7 ∧ fFunct3 0x02005093#32 = 5#3 ∧ fFunct7 0x02005093#32 ∉ [0x00#7, 0x20#7]) ∧
    (fOpcode 0x00004073#32 = 0x73#7 ∧ fFunct3 0x00004073#32 = 4#3) ∧
    (fOpcode 0x00000473#32 = 0x73#7 ∧ fFunct3 0x00000473#32 = 0#3 ∧ (0x00000473#32 : Word) ≠ 0x00000073#32) := by decide +kernel

/-- A word that each mask of the opcode table takes to its pattern, with every bit outside the mask set. -/
theorem witness_RowDecodes : (0xFFFFFFB7#32 &&& 0x0000007F#32 = 0x00000037#32) ∧
    (0xFFFF8F93#32 &&& 0x0000707F#32 = 0x00000013#32) ∧ (0x01FF8FB3#32 &&& 0xFE00707F#32 = 0x00000033#32) ∧
    (0x00000073#32 &&& 0xFFFFFFFF#32 = 0x00000073#32) := by decide +kernel

/-- A running state whose bytes at the last fetchable `pc` decode to a load past the window. -/
def lateLoad : State := storeFetchWord config (State.reset.setPc 0x800FFFFC#32) 0x00010283#32

theorem witness_StepRunsDecodedInstruction : lateLoad.run = .running ∧ Accessible config lateLoad.pc 4 ∧
    decodeBytes config.byteOrder (fetchedBytes lateLoad) = .ok (.lb 5 2 0, []) ∧ (Instr.lb 5 2 0).wf = true := by decide +kernel
theorem witness_StepStopPriority :
    (State.reset.setPc 0x80000002#32).run = .running ∧ (0x80000002#32).toNat % 4 ≠ 0 ∧
    (Accessible config State.reset.pc 4 ∧
      decodeBytes config.byteOrder (fetchedBytes State.reset) = .error .unmatchedOpcode) ∧
    (Accessible config lateLoad.pc 4 ∧ decodeBytes config.byteOrder (fetchedBytes lateLoad) = .ok (.lb 5 2 0, []) ∧
      dataAccess (.lb 5 2 0) = some (2, 0, 1)) := by decide +kernel
theorem witness_FaultsExactlyWhereListed : faultOf (step lateLoad) = some (.dataOutOfBounds .memory) ∧
    loadBytes config [] 0x800FFFFF#32 [1, 2] = .error (.outOfBounds .memory) := by decide +kernel
theorem witness_BytewiseRefusesNothing :
    ({ config with misaligned := .bytewise } : Config).misaligned = .bytewise ∧ State.reset.run = .running := ⟨rfl, rfl⟩

/-- The addresses at which the loads and the stores are stated to complete and to stop are reached by operands. -/
theorem witness_effective_addresses :
    effectiveAddress (regsAt [(1, 0x80000800#32)]) 1 0x800 = 0x80000000#32 ∧
    effectiveAddress State.reset 2 0xFFF = 0x800FFFFF#32 ∧ effectiveAddress State.reset 2 0xFFC = 0x800FFFFC#32 ∧
    effectiveAddress State.reset 2 0xFFE = 0x800FFFFE#32 ∧ effectiveAddress State.reset 2 0 = 0x80100000#32 ∧
    effectiveAddress (regsAt [(1, 0x80000000#32)]) 1 0xFFF = 0x7FFFFFFF#32 ∧
    BitVec.ofInt 32 ((State.reset.getX 2).toNat + (0xFFC#12).toInt) = 0x800FFFFC#32 := by decide +kernel
theorem witness_EffectiveAddress : dataAccess (.sb 2 0 0xFFF) = some (2, 0xFFF, 1) ∧ isStore (.sb 2 0 0xFFF) = true ∧
    (∃ t, exec (.sb 2 0 0xFFF) State.reset = .next t) ∧ destReg (.sb 2 0 0xFFF) ≠ some 2 :=
  ⟨rfl, rfl, ⟨_, rfl⟩, by decide⟩
theorem witness_StoreThenLoad : effectiveAddress State.reset 2 0xFFC = effectiveAddress State.reset 2 0xFFC ∧
    Accessible config (effectiveAddress State.reset 2 0xFFC) 1 ∧
    Accessible config (effectiveAddress State.reset 2 0xFFC) 2 ∧
    Accessible config (effectiveAddress State.reset 2 0xFFC) 4 := by decide +kernel
theorem witness_StoreIsSeenByNextFetch :
    let s := regsAt [(3, 0x00000013#32)]
    s.run = .running ∧ Accessible config (effectiveAddress s 2 0xFFC) 4 ∧ (Instr.addi 0 0 0).wf = true ∧
      s.getX 3 = encode (.addi 0 0 0) := by decide +kernel
theorem witness_EcallTrapEntry : config.trapCauseCsr ≠ 0x305#12 := by decide +kernel

theorem witness_RunStateTransitions : (∃ t, exec .ecall State.reset = .next t) ∧
    (∃ t, step (State.reset.withFetchWord 32 0x00000073) = .next t) ∧ (State.reset.setRun .halted).run ≠ .running :=
  ⟨⟨_, rfl⟩, ⟨_, rfl⟩, by decide⟩
theorem witness_AtMostOneRegisterChanges :
    ∃ t, exec (.addi 31 0 1) State.reset = .next t ∧ t.getX 31 ≠ State.reset.getX 31 := ⟨_, rfl, by decide⟩
theorem witness_OnlyStoresChangeMemory :
    ∃ t, exec (.sb 2 2 0xFFF) (regsAt [(2, 0x80000002#32)]) = .next t ∧
      t.byteAt 0x80000001 ≠ (regsAt [(2, 0x80000002#32)]).byteAt 0x80000001 := ⟨_, rfl, by decide⟩
theorem witness_CsrAccessPaths : ∃ t, exec (.csrrwi 0 31 0xFFF) State.reset = .next t ∧
    t.getCsr 0xFFF ≠ State.reset.getCsr 0xFFF := ⟨_, rfl, by decide⟩
theorem witness_CsrBankIsInvisibleToOthers : destCsr (.lw 0 2 0xFFC) = none ∧ destCsr .mret = none := by decide +kernel
theorem witness_SequentialPc : isSequential .mret = true ∧
    ∃ t, exec .mret (State.reset.setPc 0xFFFFFFFC#32) = .next t := ⟨rfl, _, rfl⟩
theorem witness_WhereInstructionsComplete : dataAccess .ecall = none ∧ dataAccess (.sw 2 0 0xFFC) = some (2, 0xFFC, 4) :=
  ⟨rfl, rfl⟩
theorem witness_StepKeepsInvariant :
    let s := State.reset.withFetchWord 32 0xFE212E23
    s.Inv ∧ ∃ t, step s = .next t := ⟨⟨by decide, by decide, rfl, by decide⟩, _, rfl⟩
theorem witness_ReachableStatesMeetInvariant : Reachable State.reset ∧
    ∃ m, loadBytes config State.reset.mem 0x800FFFFF#32 [1] = .ok m := ⟨.reset, _, rfl⟩
theorem witness_HostLoad : InBounds config 0x800FFFFC#32 [1#8, 2, 3, 4].length ∧ [1#8] ≠ [] ∧
    loadBytes config [] 0x7FFFFFFF#32 [1] = .error (.outOfBounds .bus) ∧
    (Session.construct.load 0x80000000#32 []).2 = .refused .emptyLoad ∧
    (Session.refused .emptyLoad).step.2 = .refused .emptyLoad ∧
    (∃ m, loadBytes config State.reset.mem 0x800FFFFC#32 [1, 2, 3, 4] = .ok m) :=
  ⟨by decide, by decide, by decide, rfl, rfl, _, rfl⟩
theorem witness_BootRunsLoadedInstruction : (Instr.jal 0 0).wf = true ∧
    [0x00#8, 0x00, 0x00, 0x6F] = bytesOf config.byteOrder .word (encode (.jal 0 0)) := by decide +kernel
theorem witness_EndOfRun : (∃ t, runEnd 1 (State.reset.withFetchWord 32 0x00000073) = some (.halted t)) ∧ 1 ≤ 2 :=
  ⟨⟨_, rfl⟩, by decide⟩

end Sys2Proof.Tests
end

section
/-! The bits of every sign and zero extension of the model (00_scope R12), and the integer a 12-bit immediate
extends to. -/

namespace Sys2Proof.Machine

/-- What `sext_N` means bit by bit, at every width: bits from `n - 1` upwards are copies of bit `n - 1`. -/
theorem getLsbD_signExtend_min {n m i : Nat} (a : BitVec n) (hi : i < m) :
    (a.signExtend m).getLsbD i = a.getLsbD (min i (n - 1)) := by
  rw [BitVec.getLsbD_signExtend, decide_eq_true hi, Bool.true_and]
  split
  · next low => rw [Nat.min_eq_left (by omega)]
  · next high => rw [Nat.min_eq_right (by omega), BitVec.msb_eq_getLsbD_last]

/-! ## Extensions of a 32-bit value -/

theorem getLsbD_sext8 (v : Word) {i : Nat} (hi : i < 32) : (sext8 v).getLsbD i = v.getLsbD (min i 7) := by
  have lowByte : min i 7 < 8 := by omega
  simp [sext8, getLsbD_signExtend_min _ hi, lowByte]

theorem getLsbD_sext16 (v : Word) {i : Nat} (hi : i < 32) : (sext16 v).getLsbD i = v.getLsbD (min i 15) := by
  have lowHalf : min i 15 < 16 := by omega
  simp [sext16, getLsbD_signExtend_min _ hi, lowHalf]

theorem getLsbD_zext8 (v : Word) {i : Nat} (hi : i < 32) :
    (zext8 v).getLsbD i = (decide (i < 8) && v.getLsbD i) := by
  simp [zext8, hi]

theorem getLsbD_zext16 (v : Word) {i : Nat} (hi : i < 32) :
    (zext16 v).getLsbD i = (decide (i < 16) && v.getLsbD i) := by
  simp [zext16, hi]

/-! ## Extended immediates -/

theorem getLsbD_sextImm12 (a : BitVec 12) {i : Nat} (hi : i < 32) :
    (sextImm12 a).getLsbD i = a.getLsbD (min i 11) :=
  getLsbD_signExtend_min a hi

theorem getLsbD_sextImm13 (b : BitVec 13) {i : Nat} (hi : i < 32) :
    (sextImm13 b).getLsbD i = b.getLsbD (min i 12) :=
  getLsbD_signExtend_min b hi

theorem getLsbD_sextImm21 (j : BitVec 21) {i : Nat} (hi : i < 32) :
    (sextImm21 j).getLsbD i = j.getLsbD (min i 20) :=
  getLsbD_signExtend_min j hi

theorem getLsbD_zextImm5 (z : BitVec 5) {i : Nat} (hi : i < 32) :
    (zextImm5 z).getLsbD i = (decide (i < 5) && z.getLsbD i) := by
  have fiveBits : z.getLsbD i = true → i < 5 := BitVec.lt_of_getLsbD
  simpa [zextImm5, hi] using fiveBits

@[simp] theorem toInt_sextImm12 (a : BitVec 12) : (sextImm12 a).toInt = a.toInt :=
  BitVec.toInt_signExtend_of_le (by decide)

/-- The law of a 12-bit immediate: bit 11 weighs `-2048`, which is its weight as a natural number less 4096. -/
theorem toInt_sextImm12_eq_ite (a : BitVec 12) :
    (sextImm12 a).toInt = if a.getLsbD 11 then (a.toNat : Int) - 4096 else a.toNat := by
  rw [toInt_sextImm12, BitVec.toInt_eq_msb_cond, BitVec.msb_eq_getLsbD_last]
  rfl

/-- Settles O3: the bits from `getLsbD_signExtend_min` at each width, the 12-bit law from the sign bit's weight. -/
theorem signAndZeroExtension : Obligations.SignAndZeroExtension :=
  ⟨fun v _ hi => ⟨getLsbD_sext8 v hi, getLsbD_sext16 v hi, getLsbD_zext8 v hi, getLsbD_zext16 v hi⟩,
    fun a b j z _ hi =>
      ⟨getLsbD_sextImm12 a hi, getLsbD_sextImm13 b hi, getLsbD_sextImm21 j hi, getLsbD_zextImm5 z hi⟩,
    toInt_sextImm12_eq_ite⟩

end Sys2Proof.Machine
end

section
/-! The register file and the CSR bank (10_state R24 to R36): reads after writes, what an instruction may change of them
and of the run state, that other instructions do not see the CSR bank, and the invariant of the state. -/

namespace Sys2Proof.Machine

variable {i : Instr} {s t : State}

/-! ## The invariant, one lemma per update of State -/

theorem State.Inv.setPc (h : s.Inv) (a : Word) : (s.setPc a).Inv :=
  ⟨h.mem_wf, h.csr_wf, h.x_zero, h.not_faulted⟩

theorem State.Inv.setX (h : s.Inv) (r : Reg) (v : Word) : (s.setX r v).Inv where
  mem_wf := by rw [State.setX_mem]; exact h.mem_wf
  csr_wf := by rw [State.setX_csr]; exact h.csr_wf
  x_zero := by rw [State.setX_x_zero]; exact h.x_zero
  not_faulted := by rw [State.setX_run]; exact h.not_faulted

theorem State.Inv.setCsr (h : s.Inv) (k : CsrIdx) (v : Word) : (s.setCsr k v).Inv :=
  ⟨h.mem_wf, setCsr_wf h.csr_wf k v, h.x_zero, h.not_faulted⟩

theorem State.Inv.setRun (h : s.Inv) {r : RunState} (hr : r ≠ .faulted) : (s.setRun r).Inv :=
  ⟨h.mem_wf, h.csr_wf, h.x_zero, hr⟩

theorem State.Inv.setMem (h : s.Inv) {m : Memory} (hm : Memory.wf m) : (s.setMem m).Inv :=
  ⟨hm, h.csr_wf, h.x_zero, h.not_faulted⟩

theorem SparseMap.wf_nil {w : Nat} : SparseMap.WF ([] : List (Nat × BitVec w)) :=
  ⟨.nil, List.forall_mem_nil _⟩

theorem Memory.wf_nil : Memory.wf [] := ⟨SparseMap.wf_nil, List.forall_mem_nil _⟩

theorem CsrBank.wf_nil : CsrBank.wf [] := ⟨SparseMap.wf_nil, List.forall_mem_nil _⟩

/-- Bytes written inside the window keep Memory's canonical form. -/
theorem Memory.wf_writeBytes {m : Memory} {addr : Word} {bs : List Byte} (hm : Memory.wf m)
    (hb : InBounds config addr bs.length) : Memory.wf (writeBytes m addr.toNat bs) := by
  obtain ⟨above, below⟩ := hb
  refine ⟨writeBytes_wf hm.1, fun e he => ?_⟩
  rcases mem_writeBytes he with old | ⟨first, last⟩
  · exact hm.2 e old
  · exact ⟨above.trans first, last.trans_le below⟩

/-- A next state of any shape keeps the invariant. -/
theorem Effect.inv (e : Effect i s t) (h : s.Inv) : t.Inv := by
  cases e with
  | register => exact (h.setX _ _).setPc _
  | pcOnly => exact h.setPc _
  | csr => exact ((h.setCsr _ _).setX _ _).setPc _
  | trap => exact ((h.setCsr _ _).setRun (by decide)).setPc _
  | store _ _ _ _ _ _ _ _ hok =>
    exact (h.setMem (Memory.wf_writeBytes h.mem_wf (accessStop_eq_none.1 hok).2)).setPc _

/-- Settles O55: a step that answers executes one instruction, and every shape of next state keeps the invariant. -/
theorem stepKeepsInvariant : Obligations.StepKeepsInvariant := by
  intro s t h hstep
  obtain ⟨_, _, _, _, _, hexec⟩ := step_next_inv hstep
  exact (exec_next hexec).inv h

/-- Settles O54: Memory and the CSR bank list nothing at reset. -/
theorem resetMeetsInvariant : Obligations.ResetMeetsInvariant where
  mem_wf := Memory.wf_nil
  csr_wf := CsrBank.wf_nil
  x_zero := rfl
  not_faulted := by decide

/-! ## Frames: what the shapes of a next state leave unchanged -/

/-- The run state after an instruction (R36). -/
theorem Effect.run_eq (e : Effect i s t) : t.run = if i = .ecall then .halted else s.run := by
  cases e with
  | register _ _ _ _ _ _ he | csr _ _ _ _ _ _ he => simp [he]
  | pcOnly _ _ _ _ he | store _ _ _ _ _ _ he => simp [he]
  | trap he => simp [he]

theorem Effect.getX_eq (e : Effect i s t) {r : Reg} (hr : destReg i ≠ some r) : t.getX r = s.getX r := by
  cases e with
  | register rd _ _ hd | csr rd _ _ hd =>
    have other : r ≠ rd := by rintro rfl; exact hr hd
    simp [State.getX_setX_other _ _ other]
  | pcOnly | trap | store => rfl

theorem Effect.getCsr_eq (e : Effect i s t) {k : CsrIdx} (hk : destCsr i ≠ some k) : t.getCsr k = s.getCsr k := by
  cases e with
  | register | pcOnly | store => simp
  | csr _ slot _ _ hc =>
    have other : k ≠ slot := by rintro rfl; exact hk hc
    simp [State.getCsr_setCsr_other _ _ other]
  | trap he =>
    have other : k ≠ config.trapCauseCsr := by rintro rfl; exact hk (he ▸ rfl)
    simp [State.getCsr_setCsr_other _ _ other]

/-- No step is defined but in Running (decision D13). -/
theorem step_of_not_running (h : s.run ≠ .running) : step s = .refused (.noStepDefined s.run) := by
  unfold step nextInstr
  cases hr : s.run with
  | running => exact absurd hr h
  | halted | faulted => rfl

/-- A step is made in Running and leaves Running or Halted. -/
theorem step_next_not_faulted (h : step s = .next t) : t.run ≠ .faulted := by
  obtain ⟨hrun, _, _, _, _, hexec⟩ := step_next_inv h
  rw [(exec_next hexec).run_eq, hrun]
  split <;> decide

/-- Settles O47: the shapes of a next state fix its run state, and a step is made in Running alone. -/
theorem runStateTransitions : Obligations.RunStateTransitions :=
  ⟨fun _ _ _ h => (exec_next h).run_eq, fun _ _ => step_next_not_faulted, fun _ => step_of_not_running⟩

/-- Settles O48: a register other than the destination reads as before. -/
theorem atMostOneRegisterChanges : Obligations.AtMostOneRegisterChanges := by
  intro i s t r h changed
  by_contra hr
  exact changed ((exec_next h).getX_eq hr)

/-- Settles O50: a slot other than the destination reads as before. -/
theorem csrAccessPaths : Obligations.CsrAccessPaths := by
  intro i s t k h changed
  by_contra hk
  exact changed ((exec_next h).getCsr_eq hk)

/-! ## The shared ends that do not see the CSR bank: they commute with putting another bank in the state -/

/-- The state with another CSR bank. -/
def State.setBank (s : State) (b : CsrBank) : State := { s with csr := b }

theorem State.setBank_setX (s : State) (b : CsrBank) (r : Reg) (v : Word) :
    (s.setBank b).setX r v = (s.setX r v).setBank b := by
  unfold State.setX
  split <;> rfl

section
variable (b : CsrBank)

theorem retireReg_setBank (rd : Reg) (v : Word) (s : State) :
    retireReg rd v (s.setBank b) = withCsr b (retireReg rd v s) := by
  unfold retireReg
  rw [State.setBank_setX]
  rfl

theorem jumpOp_setBank (rd : Reg) (target : Word) (s : State) :
    jumpOp rd target (s.setBank b) = withCsr b (jumpOp rd target s) := by
  unfold jumpOp
  rw [State.setBank_setX]
  rfl

theorem withCsr_dataStop (e : AccessStop) : withCsr b (dataStop e) = dataStop e := by
  cases e <;> rfl

theorem loadOp_setBank (c : Config) (w : Width) (ext : Word → Word) (rd : Reg) (addr : Word) (s : State) :
    loadOp c w ext rd addr (s.setBank b) = withCsr b (loadOp c w ext rd addr s) := by
  rw [loadOp_eq, loadOp_eq]
  cases accessStop c addr w.bytes with
  | some e => exact (withCsr_dataStop b e).symm
  | none => exact retireReg_setBank b rd _ s

theorem storeOp_setBank (c : Config) (w : Width) (addr v : Word) (s : State) :
    storeOp c w addr v (s.setBank b) = withCsr b (storeOp c w addr v s) := by
  rw [storeOp_eq, storeOp_eq]
  cases accessStop c addr w.bytes with
  | some e => exact (withCsr_dataStop b e).symm
  | none => rfl

end

/-- Settles O51: an instruction that names no slot ends in one of the shared ends above, and its operands are read from
`pc` and the registers alone. -/
theorem csrBankIsInvisibleToOthers : Obligations.CsrBankIsInvisibleToOthers := by
  intro i s b hi
  cases i
  case csrrw | csrrs | csrrc | csrrwi | csrrsi | csrrci | ecall => cases hi
  case fence | mret | beq | bne | blt | bge | bltu | bgeu => rfl
  case jal | jalr => exact jumpOp_setBank b _ _ s
  case lb | lh | lw | lbu | lhu => exact loadOp_setBank b _ _ _ _ _ s
  case sb | sh | sw => exact storeOp_setBank b _ _ _ _ s
  all_goals exact retireReg_setBank b _ _ s

/-! ## Reads after writes -/

/-- Settles O1: the read-after-write laws of the register file. -/
theorem registerFileReadAfterWrite : Obligations.RegisterFileReadAfterWrite := fun s _ _ v =>
  ⟨s.getX_zero, s.setX_zero v, s.getX_setX_same v, s.getX_setX_other v⟩

/-- Settles O2: the read-after-write laws of the CSR bank, and the fields its write leaves alone. -/
theorem csrReadAfterWrite : Obligations.CsrReadAfterWrite := fun s k _ v =>
  ⟨s.getCsr_setCsr_same k v, s.getCsr_setCsr_other v, s.setCsr_pc k v, s.setCsr_x k v, s.setCsr_run k v,
    s.setCsr_mem k v⟩

end Sys2Proof.Machine
end

section
/-! Memory (20_memory R50 to R75): the value a read answers, the bytes a write stores, the round trip of the two, which
instructions change a byte, that a stored word is the next one fetched, and what `MISALIGNED = Bytewise` leaves of the
refusals. -/

namespace Sys2Proof.Machine

variable {i : Instr} {s t : State} {c : Config} {m : Memory} {addr : Word} {w : Width}

/-! ## The two spellings of a value's bytes (R58, R59) -/

theorem byteOf_eq_extractLsb' (v : Word) (k : Nat) : byteOf v k = v.extractLsb' (8 * k) 8 := by
  apply BitVec.eq_of_toNat_eq
  rw [byteOf, BitVec.toNat_ofNat, BitVec.extractLsb'_toNat, Nat.shiftRight_eq_div_pow, pow_mul]
  rfl

theorem bytesOf_eq_storedBytes (bo : ByteOrder) (w : Width) (v : Word) : bytesOf bo w v = storedBytes bo v w := by
  cases w <;> cases bo <;> simp [bytesOf, bytesMostFirst, storedBytes, inOrder, byteOf_eq_extractLsb']

/-- What a read joins is the number that R58 gives, byte by byte. -/
theorem toNat_valueOf_readBytes (bo : ByteOrder) (m : Memory) (a : Nat) (w : Width) :
    (valueOf bo (readBytes m a w.bytes)).toNat = readValue bo m a w := by
  cases w with
  | byte => exact (congrArg BitVec.toNat (valueOf_single bo _)).trans (BitVec.toNat_setWidth_of_le (by decide))
  | half => cases bo <;> exact toNat_joinMostFirst_two _ _
  | word =>
    cases bo
    all_goals
      refine (toNat_joinMostFirst_four _ _ _ _).trans ?_
      simp only [readValue, wordValue, halfValue, Nat.add_assoc, Nat.reduceAdd]
      omega

theorem toNat_truncate (w : Width) (v : Word) : (w.truncate v).toNat = v.toNat % 256 ^ w.bytes := by
  have inWord : v.toNat % 256 ^ w.bytes < 2 ^ 32 := (Nat.mod_le _ _).trans_lt v.isLt
  rw [Width.truncate, BitVec.toNat_setWidth, BitVec.toNat_setWidth, pow_mul]
  exact Nat.mod_eq_of_lt inWord

/-! ## Reads and writes (R58, R59, R74) -/

/-- A read that answers an error answers the stop of its access. -/
theorem memRead_error_inv {e : AccessStop} (h : memRead c m addr w = .error e) : accessStop c addr w.bytes = some e := by
  unfold memRead at h
  split at h
  · next hs => rwa [Except.error.inj h] at hs
  · cases h

/-- A write that answers an error answers the stop of its access. -/
theorem memWrite_error_inv {v : Word} {e : AccessStop} (h : memWrite c m addr w v = .error e) :
    accessStop c addr w.bytes = some e := by
  unfold memWrite at h
  split at h
  · next hs => rwa [Except.error.inj h] at hs
  · cases h

/-- A result that is the error of each stop of the access stops where and as the rules say. -/
theorem accessStops_of_error {α : Type} {n : Nat} {r : Except AccessStop α}
    (h : ∀ e, accessStop c addr n = some e → r = .error e) : AccessStops c addr n r :=
  ⟨fun hm ha => h _ (accessStop_misaligned hm ha),
    fun ha below => h _ ((accessStop_eq_boundsStop ha).trans (boundsStop_bus below)),
    fun ha above past => h _ ((accessStop_eq_boundsStop ha).trans (boundsStop_memory above past))⟩

/-- Settles O7: the stops of the access are the read's, and its value is `toNat_valueOf_readBytes`. -/
theorem memReadValue : Obligations.MemReadValue := fun _ _ _ _ =>
  ⟨fun ha => ⟨_, memRead_eq_ok (accessStop_none_iff.2 ha), toNat_valueOf_readBytes _ _ _ _⟩,
    accessStops_of_error fun _ => memRead_eq_error⟩

/-- Settles O8: the stops of the access are the write's, and its bytes are those of `writeBytes`. -/
theorem memWriteBytes : Obligations.MemWriteBytes := by
  intro c m addr w v
  refine ⟨fun ha => ⟨_, memWrite_eq_ok (accessStop_none_iff.2 ha), fun k hk => ?_, fun b hb => ?_⟩,
    accessStops_of_error fun _ => memWrite_eq_error⟩
  · rw [get_writeBytes, length_bytesOf, if_pos (by omega), Nat.add_sub_cancel_left, bytesOf_eq_storedBytes]
  · exact get_writeBytes_outside (by rwa [length_bytesOf])

/-- A read after a write at the same place and width answers the low bits written. -/
theorem memRead_writeBytes (v : Word) (h : accessStop c addr w.bytes = none) :
    memRead c (writeBytes m addr.toNat (bytesOf c.byteOrder w v)) addr w = .ok (w.truncate v) := by
  have readBack := readBytes_writeBytes m addr.toNat (bytesOf c.byteOrder w v)
  rw [length_bytesOf] at readBack
  rw [memRead_eq_ok h, readBack, valueOf_bytesOf]

/-- Settles O9: `memRead_writeBytes`, with the low bits said on the number. -/
theorem memoryRoundTrip : Obligations.MemoryRoundTrip := fun _ _ _ w v ha =>
  have h := accessStop_none_iff.2 ha
  ⟨_, _, memWrite_eq_ok h, memRead_writeBytes v h, toNat_truncate w v⟩

/-! ## What an instruction changes of Memory (R64) -/

/-- A byte after an instruction reads as before, or it lies in the access of a store. -/
theorem Effect.byteAt_eq_or_stored (e : Effect i s t) (a : Nat) : t.byteAt a = s.byteAt a ∨
    isStore i = true ∧ ∃ base off n, dataAccess i = some (base, off, n) ∧
      (effectiveAddress s base off).toNat ≤ a ∧ a < (effectiveAddress s base off).toNat + n := by
  cases e with
  | register | pcOnly | csr | trap => simp
  | store base off bs _ _ hs _ ha =>
    by_cases inside : (effectiveAddress s base off).toNat ≤ a ∧ a < (effectiveAddress s base off).toNat + bs.length
    · exact .inr ⟨hs, base, off, bs.length, ha, inside⟩
    · exact .inl (get_writeBytes_outside inside)

/-- Settles O49: a byte that no store's access holds reads as before. -/
theorem onlyStoresChangeMemory : Obligations.OnlyStoresChangeMemory := fun _ _ _ a h changed =>
  ((exec_next h).byteAt_eq_or_stored a).resolve_left changed

/-! ## A stored word is what the next fetch there reads (R71, R300) -/

/-- The decoder reads a well-formed instruction back from its word. -/
theorem decodeWord_encode : ∀ i : Instr, i.wf = true → decodeWord (encode i) = .ok i
  | .lui _ _ => Laws.RoundTrip.lui _ _
  | .auipc _ _ => Laws.RoundTrip.auipc _ _
  | .jal _ _ => Laws.RoundTrip.jal _ _
  | .jalr _ _ _ => Laws.RoundTrip.jalr _ _ _
  | .beq _ _ _ => Laws.RoundTrip.beq _ _ _
  | .bne _ _ _ => Laws.RoundTrip.bne _ _ _
  | .blt _ _ _ => Laws.RoundTrip.blt _ _ _
  | .bge _ _ _ => Laws.RoundTrip.bge _ _ _
  | .bltu _ _ _ => Laws.RoundTrip.bltu _ _ _
  | .bgeu _ _ _ => Laws.RoundTrip.bgeu _ _ _
  | .lb _ _ _ => Laws.RoundTrip.lb _ _ _
  | .lh _ _ _ => Laws.RoundTrip.lh _ _ _
  | .lw _ _ _ => Laws.RoundTrip.lw _ _ _
  | .lbu _ _ _ => Laws.RoundTrip.lbu _ _ _
  | .lhu _ _ _ => Laws.RoundTrip.lhu _ _ _
  | .sb _ _ _ => Laws.RoundTrip.sb _ _ _
  | .sh _ _ _ => Laws.RoundTrip.sh _ _ _
  | .sw _ _ _ => Laws.RoundTrip.sw _ _ _
  | .addi _ _ _ => Laws.RoundTrip.addi _ _ _
  | .slti _ _ _ => Laws.RoundTrip.slti _ _ _
  | .sltiu _ _ _ => Laws.RoundTrip.sltiu _ _ _
  | .xori _ _ _ => Laws.RoundTrip.xori _ _ _
  | .ori _ _ _ => Laws.RoundTrip.ori _ _ _
  | .andi _ _ _ => Laws.RoundTrip.andi _ _ _
  | .slli _ _ _ => Laws.RoundTrip.slli _ _ _
  | .srli _ _ _ => Laws.RoundTrip.srli _ _ _
  | .srai _ _ _ => Laws.RoundTrip.srai _ _ _
  | .add _ _ _ => Laws.RoundTrip.add _ _ _
  | .sub _ _ _ => Laws.RoundTrip.sub _ _ _
  | .sll _ _ _ => Laws.RoundTrip.sll _ _ _
  | .slt _ _ _ => Laws.RoundTrip.slt _ _ _
  | .sltu _ _ _ => Laws.RoundTrip.sltu _ _ _
  | .xor _ _ _ => Laws.RoundTrip.xor _ _ _
  | .srl _ _ _ => Laws.RoundTrip.srl _ _ _
  | .sra _ _ _ => Laws.RoundTrip.sra _ _ _
  | .or _ _ _ => Laws.RoundTrip.or _ _ _
  | .and _ _ _ => Laws.RoundTrip.and _ _ _
  | .fence _ _ _ _ _ => Laws.RoundTrip.fence _ _ _ _ _
  | .csrrw _ _ _ => Laws.RoundTrip.csrrw _ _ _
  | .csrrs _ _ _ => Laws.RoundTrip.csrrs _ _ _
  | .csrrc _ _ _ => Laws.RoundTrip.csrrc _ _ _
  | .csrrwi _ _ _ => Laws.RoundTrip.csrrwi _ _ _
  | .csrrsi _ _ _ => Laws.RoundTrip.csrrsi _ _ _
  | .csrrci _ _ _ => Laws.RoundTrip.csrrci _ _ _
  | .ecall => Laws.RoundTrip.ecall
  | .mret => Laws.RoundTrip.mret

/-- A Running state whose fetch answers the word of a well-formed instruction executes it. -/
theorem step_of_fetch_encode (hrun : s.run = .running) (hf : fetch config s = .ok (encode i)) (hi : i.wf = true) :
    step s = exec i s :=
  step_eq_exec (nextInstr_eq_ok.2 ⟨hrun, _, hf, decodeWord_encode i hi⟩)

/-- Settles O42: the store leaves the word where a fetch at its address reads it. -/
theorem storeIsSeenByNextFetch : Obligations.StoreIsSeenByNextFetch := by
  intro s b src off i hrun ha hi hsrc
  have hok : accessStop config (effectiveAddress s b off) Width.word.bytes = none := accessStop_none_iff.2 ha
  refine ⟨_, storeOp_next.2 ⟨hok, rfl⟩, step_of_fetch_encode hrun ?_ hi⟩
  exact (memRead_writeBytes (s.getX src) hok).trans (by rw [truncate_word, hsrc])

/-! ## `MISALIGNED = Bytewise` (R62, R63, R265) -/

theorem accessStop_ne_misaligned {n : Nat} (hc : c.misaligned = .bytewise) :
    accessStop c addr n ≠ some .misaligned := by
  intro h
  rw [accessStop_eq_boundsStop (fun hr => by rw [hc] at hr; cases hr)] at h
  rcases boundsStop_inv h with ⟨_, he⟩ | ⟨_, _, he⟩ <;> cases he

theorem memRead_ne_misaligned (hc : c.misaligned = .bytewise) : memRead c m addr w ≠ .error .misaligned :=
  fun h => accessStop_ne_misaligned hc (memRead_error_inv h)

theorem memWrite_ne_misaligned {v : Word} (hc : c.misaligned = .bytewise) :
    memWrite c m addr w v ≠ .error .misaligned :=
  fun h => accessStop_ne_misaligned hc (memWrite_error_inv h)

section
variable {d : DecodedInstr}

theorem writebackLoad_ne_misaligned {ext : Word → Word} (hc : c.misaligned = .bytewise) :
    writebackLoad c d addr w ext s ≠ .error .misaligned := by
  unfold writebackLoad
  split
  · simp
  · next hr => exact fun h => memRead_ne_misaligned hc (hr.trans (Except.error.inj h ▸ rfl))

theorem writebackStore_ne_misaligned (hc : c.misaligned = .bytewise) :
    writebackStore c d addr w s ≠ .error .misaligned := by
  unfold writebackStore
  split
  · simp
  · next hr => exact fun h => memWrite_ne_misaligned hc (hr.trans (Except.error.inj h ▸ rfl))

/-- Only the loads and the stores can stop in Writeback. -/
theorem writebackStage_ne_misaligned {e : ExecuteResult} (hc : c.misaligned = .bytewise) :
    writebackStage c d e s ≠ .error .misaligned := by
  unfold writebackStage writebackDest
  cases d.op
  case lb | lh | lw | lbu | lhu => exact writebackLoad_ne_misaligned hc
  case sb | sh | sw => exact writebackStore_ne_misaligned hc
  all_goals simp

end

theorem dataStop_ne_refused {e : AccessStop} (he : e ≠ .misaligned) (r : Refusal) : dataStop e ≠ .refused r := by
  cases e with
  | outOfBounds l => simp [dataStop]
  | misaligned => exact absurd rfl he

theorem fetchStop_ne_refused {e : AccessStop} (he : e ≠ .misaligned) (r : Refusal) :
    (fetchStop e).outcome ≠ .refused r := by
  cases e with
  | outOfBounds l => simp [fetchStop, Stop.outcome]
  | misaligned => exact absurd rfl he

theorem stagesAfterFetch_ne_refused {v : Word} (hc : c.misaligned = .bytewise) (r : Refusal) :
    stagesAfterFetch c v s ≠ .refused r := by
  unfold stagesAfterFetch
  split
  · simp
  · split
    · next hw => exact dataStop_ne_refused (by rintro rfl; exact writebackStage_ne_misaligned hc hw) r
    · simp

/-- Settles O20: a Running step is refused by a misaligned access alone, and under Bytewise no access is one. -/
theorem bytewiseRefusesNothing : Obligations.BytewiseRefusesNothing := by
  intro c s r hc hrun
  simp only [pipelineStep, hrun]
  split
  · next hf => exact fetchStop_ne_refused (by rintro rfl; exact memRead_ne_misaligned hc hf) r
  · exact stagesAfterFetch_ne_refused hc r

end Sys2Proof.Machine
end

section
/-! The host's load (20_memory R73): what it copies and where it fails, what the session becomes, and that loads and
steps keep the invariant of the state. -/

namespace Sys2Proof.Machine

variable {c : Config} {m : Memory} {addr : Word} {bytes : List Byte}

/-! ## The load on Memory -/

theorem loadBytes_eq_ok (h : InBounds c addr bytes.length) :
    loadBytes c m addr bytes = .ok (writeBytes m addr.toNat bytes) := by
  rw [loadBytes, boundsStop_eq_none.2 h]

theorem loadBytes_eq_error {e : AccessStop} (h : boundsStop c addr bytes.length = some e) :
    loadBytes c m addr bytes = .error e := by
  rw [loadBytes, h]

/-- All a load that answers a memory says. -/
theorem loadBytes_ok_inv {m' : Memory} (h : loadBytes c m addr bytes = .ok m') :
    InBounds c addr bytes.length ∧ m' = writeBytes m addr.toNat bytes := by
  cases hs : boundsStop c addr bytes.length with
  | none =>
    have inBounds := boundsStop_eq_none.1 hs
    rw [loadBytes_eq_ok inBounds] at h
    exact ⟨inBounds, (Except.ok.inj h).symm⟩
  | some e => rw [loadBytes_eq_error hs] at h; cases h

/-! ## The invariant along loads and steps -/

theorem State.Inv.load {s : State} (h : s.Inv) (hl : loadBytes config s.mem addr bytes = .ok m) :
    (s.setMem m).Inv := by
  obtain ⟨inBounds, rfl⟩ := loadBytes_ok_inv hl
  exact h.setMem (Memory.wf_writeBytes h.mem_wf inBounds)

theorem Reachable.inv {s : State} (h : Reachable s) : s.Inv := by
  induction h with
  | reset => exact resetMeetsInvariant
  | load _ hl ih => exact ih.load hl
  | step _ hstep ih => exact stepKeepsInvariant _ _ ih hstep

/-- Settles O56: every load keeps the invariant, and so does every way a state is reached. -/
theorem reachableStatesMeetInvariant : Obligations.ReachableStatesMeetInvariant :=
  ⟨fun _ _ _ _ => State.Inv.load, fun _ => Reachable.inv⟩

/-! ## The load on the session -/

/-- A load before the first step, of at least one byte. -/
theorem Session.load_loading {s : State} {o : Except AccessStop Memory} (nonempty : bytes ≠ [])
    (hl : loadBytes config s.mem addr bytes = o) :
    Session.load (.loading s) addr bytes = Session.afterLoad s o := by
  rw [Session.load, if_neg nonempty, hl]

/-- What a load before the first step makes of the session, where it is answered with a refusal. -/
theorem Session.afterLoad_ends {s : State} {o : Except AccessStop Memory} {r : Refusal}
    (h : (Session.afterLoad s o).2 = .refused r) : (Session.afterLoad s o).1 = .refused r := by
  match o with
  | .ok _ | .error (.outOfBounds _) => cases h
  | .error .misaligned => cases h; rfl

/-- A load that is answered with a refusal ends the session under the name of that refusal. -/
theorem Session.load_ends {ses : Session} {r : Refusal} (h : (ses.load addr bytes).2 = .refused r) :
    (ses.load addr bytes).1 = .refused r := by
  cases ses with
  | loading s =>
    by_cases empty : bytes = []
    · subst empty; cases h; rfl
    · rw [Session.load_loading empty rfl] at h ⊢
      exact Session.afterLoad_ends h
  | started | faulted | refused => cases h; rfl

/-- A step that is answered with a refusal ends the session under the name of that refusal. -/
theorem Session.step_ends {ses : Session} {r : Refusal} (h : ses.step.2 = .refused r) : ses.step.1 = .refused r := by
  cases ses with
  | loading | started => exact Session.afterStep_ends h
  | faulted | refused => cases h; rfl

/-- Settles O57: the load on Memory, on the session before the first step, where it is undefined, and what a refusal
leaves of the session. -/
theorem hostLoad : Obligations.HostLoad :=
  ⟨fun _ m addr bytes => ⟨fun h => ⟨_, loadBytes_eq_ok h, get_writeBytes m addr.toNat bytes⟩,
      fun below => loadBytes_eq_error (boundsStop_bus below),
      fun above past => loadBytes_eq_error (boundsStop_memory above past)⟩,
    fun _ _ _ nonempty => ⟨fun _ => Session.load_loading nonempty, fun _ => Session.load_loading nonempty⟩,
    fun _ _ _ => ⟨rfl, rfl⟩,
    fun _ _ _ _ => ⟨Session.load_ends, Session.step_ends⟩⟩

end Sys2Proof.Machine
end

section
/-! The encoding (30_encoding R81 to R101): the decoder and the encoder as one bijection between the words that match and
the well-formed instructions, the decoder and the table of masks as one classification, and the words that match
nothing. -/

namespace Sys2Proof.Machine

variable {w : Word} {i : Instr}

/-! ## The decoder through its decision tree -/

theorem decodeWord_eq_ok_iff : decodeWord w = .ok i ↔ matchInstr w = some i := by
  unfold decodeWord
  cases matchInstr w <;> simp

theorem unmatched_iff : Unmatched w ↔ matchInstr w = none := by
  unfold Unmatched decodeWord
  cases matchInstr w <;> simp

/-! ## A word is its keys and its operand fields, format by format (R90) -/

section
variable {op : BitVec 7} {f3 : BitVec 3} {f7 : BitVec 7}

theorem encR_of_keys (hop : fOpcode w = op) (h3 : fFunct3 w = f3) (h7 : fFunct7 w = f7) :
    encR f7 (fRs2 w) (fRs1 w) f3 (fRd w) op = w := by
  subst hop h3 h7; exact encR_fields w

theorem encI_of_keys (hop : fOpcode w = op) (h3 : fFunct3 w = f3) : encI (fCsr w) (fRs1 w) f3 (fRd w) op = w := by
  subst hop h3; exact encI_fields w

theorem encS_of_keys (hop : fOpcode w = op) (h3 : fFunct3 w = f3) :
    encS (immSRaw w) (fRs2 w) (fRs1 w) f3 op = w := by
  subst hop h3; exact encS_fields w

theorem encB_of_keys (hop : fOpcode w = op) (h3 : fFunct3 w = f3) :
    encB (immBRaw w) (fRs2 w) (fRs1 w) f3 op = w := by
  subst hop h3; exact encB_fields w

theorem encU_of_keys (hop : fOpcode w = op) : encU (immURaw w) (fRd w) op = w := by
  subst hop; exact encU_fields w

theorem encJ_of_keys (hop : fOpcode w = op) : encJ (immJRaw w) (fRd w) op = w := by
  subst hop; exact encJ_fields w

theorem encFence_of_keys (hop : fOpcode w = op) (h3 : fFunct3 w = f3) :
    encFence (fFm w) (fPred w) (fSucc w) (fRs1 w) f3 (fRd w) op = w := by
  subst hop h3; exact encFence_fields w

end

/-! ## What decodes is well-formed and is the word's one instruction: one lemma per major opcode, one leaf per row -/

theorem encode_of_decodeJalr (hop : fOpcode w = 0x67#7) (h : decodeJalr w = some i) :
    i.wf = true ∧ encode i = w := by
  unfold decodeJalr at h
  split at h <;> cases h
  exact ⟨rfl, encI_of_keys hop ‹_›⟩

theorem encode_of_decodeBranch (hop : fOpcode w = 0x63#7) (h : decodeBranch w = some i) :
    i.wf = true ∧ encode i = w := by
  unfold decodeBranch at h
  split at h <;> cases h
  all_goals exact ⟨branchOffsetOk_immBRaw w, encB_of_keys hop ‹_›⟩

theorem encode_of_decodeLoad (hop : fOpcode w = 0x03#7) (h : decodeLoad w = some i) :
    i.wf = true ∧ encode i = w := by
  unfold decodeLoad at h
  split at h <;> cases h
  all_goals exact ⟨rfl, encI_of_keys hop ‹_›⟩

theorem encode_of_decodeStore (hop : fOpcode w = 0x23#7) (h : decodeStore w = some i) :
    i.wf = true ∧ encode i = w := by
  unfold decodeStore at h
  split at h <;> cases h
  all_goals exact ⟨rfl, encS_of_keys hop ‹_›⟩

theorem encode_of_decodeOpImm (hop : fOpcode w = 0x13#7) (h : decodeOpImm w = some i) :
    i.wf = true ∧ encode i = w := by
  unfold decodeOpImm at h
  split at h
  case h_2 | h_6 =>
    split at h <;> cases h
    all_goals exact ⟨rfl, encR_of_keys hop ‹_› ‹_›⟩
  all_goals cases h; exact ⟨rfl, encI_of_keys hop ‹_›⟩

theorem encode_of_decodeOp (hop : fOpcode w = 0x33#7) (h : decodeOp w = some i) :
    i.wf = true ∧ encode i = w := by
  unfold decodeOp at h
  split at h <;> split at h <;> cases h
  all_goals exact ⟨rfl, encR_of_keys hop ‹_› ‹_›⟩

theorem encode_of_decodeMiscMem (hop : fOpcode w = 0x0F#7) (h : decodeMiscMem w = some i) :
    i.wf = true ∧ encode i = w := by
  unfold decodeMiscMem at h
  split at h <;> cases h
  exact ⟨rfl, encFence_of_keys hop ‹_›⟩

theorem encode_of_decodeSystemFixed (h : decodeSystemFixed w = some i) : i.wf = true ∧ encode i = w := by
  unfold decodeSystemFixed at h
  split at h
  · next hw => cases h; exact ⟨rfl, hw.symm⟩
  · split at h <;> cases h
    next hw => exact ⟨rfl, hw.symm⟩

theorem encode_of_decodeSystem (hop : fOpcode w = 0x73#7) (h : decodeSystem w = some i) :
    i.wf = true ∧ encode i = w := by
  unfold decodeSystem at h
  split at h
  case h_1 => exact encode_of_decodeSystemFixed h
  all_goals cases h
  all_goals exact ⟨rfl, encI_of_keys hop ‹_›⟩

theorem encode_of_matchInstr (h : matchInstr w = some i) : i.wf = true ∧ encode i = w := by
  unfold matchInstr at h
  split at h
  case h_1 hop | h_2 hop => cases h; exact ⟨rfl, encU_of_keys hop⟩
  case h_3 hop => cases h; exact ⟨jumpOffsetOk_immJRaw w, encJ_of_keys hop⟩
  case h_4 hop => exact encode_of_decodeJalr hop h
  case h_5 hop => exact encode_of_decodeBranch hop h
  case h_6 hop => exact encode_of_decodeLoad hop h
  case h_7 hop => exact encode_of_decodeStore hop h
  case h_8 hop => exact encode_of_decodeOpImm hop h
  case h_9 hop => exact encode_of_decodeOp hop h
  case h_10 hop => exact encode_of_decodeMiscMem hop h
  case h_11 hop => exact encode_of_decodeSystem hop h
  case h_12 => cases h

/-- Decoder and encoder are one relation between words and well-formed instructions. -/
theorem decodeWord_eq_ok_iff_encode : decodeWord w = .ok i ↔ i.wf = true ∧ encode i = w := by
  constructor
  · exact fun h => encode_of_matchInstr (decodeWord_eq_ok_iff.1 h)
  · rintro ⟨hwf, rfl⟩
    exact decodeWord_encode i hwf

/-- Settles O11: the round trip of each constructor (`Laws.RoundTrip`), as `decodeWord_encode` collects them. -/
theorem decodeOfEncode : Obligations.DecodeOfEncode := decodeWord_encode

/-- Settles O12: at every leaf of the decision tree the keys are known, and with the operand fields they are the
word. -/
theorem encodeOfDecode : Obligations.EncodeOfDecode := fun _ _ => decodeWord_eq_ok_iff_encode.1

/-- Settles O15: each word is the encoding of its instruction. -/
theorem workedEncodings : Obligations.WorkedEncodings := by
  unfold Obligations.WorkedEncodings
  and_intros <;> exact decodeWord_eq_ok_iff_encode.2 ⟨rfl, rfl⟩

/-! ## The rows of the opcode table (R96) -/

/-- The row of the opcode table that names the mnemonic. -/
def rowOf (m : Mnemonic) : OpcodeRow := (opcodeTable.find? (·.op = m)).get (by cases m <;> rfl)

theorem rowOf_mem (m : Mnemonic) : rowOf m ∈ opcodeTable := List.get_find?_mem _

theorem rowOf_op : ∀ r ∈ opcodeTable, rowOf r.op = r := by decide

theorem opcodeTable_ops_distinct : opcodeTable.Pairwise fun r q => r.op ≠ q.op := by decide

theorem matchesWord_iff {r : OpcodeRow} : r.matchesWord w = true ↔ w &&& r.mask = r.pattern := by
  simp [OpcodeRow.matchesWord]

section
variable {p : Word}

theorem opcode_row_of_keys (hp : p &&& 0x0000007F#32 = p) (hop : fOpcode w = fOpcode p) :
    w &&& 0x0000007F#32 = p :=
  ((opcode_mask w p).2 hop).trans hp

theorem funct3_row_of_keys (hp : p &&& 0x0000707F#32 = p) (hop : fOpcode w = fOpcode p)
    (h3 : fFunct3 w = fFunct3 p) : w &&& 0x0000707F#32 = p :=
  ((funct3_mask w p).2 ⟨hop, h3⟩).trans hp

theorem funct7_row_of_keys (hp : p &&& 0xFE00707F#32 = p) (hop : fOpcode w = fOpcode p)
    (h3 : fFunct3 w = fFunct3 p) (h7 : fFunct7 w = fFunct7 p) : w &&& 0xFE00707F#32 = p :=
  ((funct7_mask w p).2 ⟨hop, h3, h7⟩).trans hp

end

/-- The word of an instruction matches the row of its mnemonic: the keys of its format are those of the pattern. -/
theorem encode_matches_rowOf (i : Instr) : encode i &&& (rowOf i.mnemonic).mask = (rowOf i.mnemonic).pattern := by
  cases i <;> dsimp only [Instr.mnemonic]
  case lui | auipc => exact opcode_row_of_keys rfl (fOpcode_encU ..)
  case jal => exact opcode_row_of_keys rfl (fOpcode_encJ ..)
  case beq | bne | blt | bge | bltu | bgeu => exact funct3_row_of_keys rfl (fOpcode_encB ..) (fFunct3_encB ..)
  case sb | sh | sw => exact funct3_row_of_keys rfl (fOpcode_encS ..) (fFunct3_encS ..)
  case fence => exact funct3_row_of_keys rfl (fOpcode_encFence ..) (fFunct3_encFence ..)
  case slli | srli | srai | add | sub | sll | slt | sltu | xor | srl | sra | or | and =>
    exact funct7_row_of_keys rfl (fOpcode_encR ..) (fFunct3_encR ..) (fFunct7_encR ..)
  case ecall | mret => rfl
  all_goals exact funct3_row_of_keys rfl (fOpcode_encI ..) (fFunct3_encI ..)

/-- A word that matches the row of a mnemonic has the keys that lead the decision tree to that mnemonic. -/
theorem matchInstr_of_rowOf {m : Mnemonic} (h : w &&& (rowOf m).mask = (rowOf m).pattern) :
    ∃ i, matchInstr w = some i ∧ i.mnemonic = m := by
  cases m
  case lui => exact ⟨_, matchInstr_lui (fields_of_opcode_row rfl h), rfl⟩
  case auipc => exact ⟨_, matchInstr_auipc (fields_of_opcode_row rfl h), rfl⟩
  case jal => exact ⟨_, matchInstr_jal (fields_of_opcode_row rfl h), rfl⟩
  case jalr =>
    obtain ⟨hop, h3⟩ := fields_of_funct3_row rfl h
    exact ⟨_, by rw [matchInstr_jalr hop, decodeJalr, h3]; rfl, rfl⟩
  case beq | bne | blt | bge | bltu | bgeu =>
    obtain ⟨hop, h3⟩ := fields_of_funct3_row rfl h
    exact ⟨_, by rw [matchInstr_branch hop, decodeBranch, h3]; rfl, rfl⟩
  case lb | lh | lw | lbu | lhu =>
    obtain ⟨hop, h3⟩ := fields_of_funct3_row rfl h
    exact ⟨_, by rw [matchInstr_load hop, decodeLoad, h3]; rfl, rfl⟩
  case sb | sh | sw =>
    obtain ⟨hop, h3⟩ := fields_of_funct3_row rfl h
    exact ⟨_, by rw [matchInstr_store hop, decodeStore, h3]; rfl, rfl⟩
  case addi | slti | sltiu | xori | ori | andi =>
    obtain ⟨hop, h3⟩ := fields_of_funct3_row rfl h
    exact ⟨_, by rw [matchInstr_opImm hop, decodeOpImm, h3]; rfl, rfl⟩
  case slli | srli | srai =>
    obtain ⟨hop, h3, h7⟩ := fields_of_funct7_row rfl h
    exact ⟨_, by rw [matchInstr_opImm hop, decodeOpImm, h3, h7]; rfl, rfl⟩
  case add | sub | sll | slt | sltu | xor | srl | sra | or | and =>
    obtain ⟨hop, h3, h7⟩ := fields_of_funct7_row rfl h
    exact ⟨_, by rw [matchInstr_op hop, decodeOp, h3, h7]; rfl, rfl⟩
  case fence =>
    obtain ⟨hop, h3⟩ := fields_of_funct3_row rfl h
    exact ⟨_, by rw [matchInstr_miscMem hop, decodeMiscMem, h3]; rfl, rfl⟩
  case csrrw | csrrs | csrrc | csrrwi | csrrsi | csrrci =>
    obtain ⟨hop, h3⟩ := fields_of_funct3_row rfl h
    exact ⟨_, by rw [matchInstr_system hop, decodeSystem, h3]; rfl, rfl⟩
  case ecall | mret =>
    obtain rfl := BitVec.and_allOnes.symm.trans h
    exact ⟨_, rfl, rfl⟩

theorem rowOf_matchesWord_iff {m : Mnemonic} :
    (rowOf m).matchesWord w = true ↔ ∃ i, matchInstr w = some i ∧ i.mnemonic = m := by
  rw [matchesWord_iff]
  constructor
  · exact matchInstr_of_rowOf
  · rintro ⟨i, hi, rfl⟩
    obtain ⟨-, rfl⟩ := encode_of_matchInstr hi
    exact encode_matches_rowOf i

/-- A row of the table matches a word exactly when the decoder reads an instruction of the row's mnemonic from it. -/
theorem matchesWord_iff_of_mem {r : OpcodeRow} (hr : r ∈ opcodeTable) :
    r.matchesWord w = true ↔ ∃ i, matchInstr w = some i ∧ i.mnemonic = r.op := by
  rw [← rowOf_matchesWord_iff, rowOf_op r hr]

theorem classify_eq_none_iff : classify w = none ↔ matchInstr w = none := by
  rw [classify, Option.map_eq_none_iff, List.find?_eq_none]
  constructor
  · intro noRow
    by_contra decodes
    obtain ⟨i, hi⟩ := Option.ne_none_iff_exists'.1 decodes
    exact noRow _ (rowOf_mem i.mnemonic) (rowOf_matchesWord_iff.2 ⟨i, hi, rfl⟩)
  · intro h r hr matched
    obtain ⟨i, hi, -⟩ := (matchesWord_iff_of_mem hr).1 matched
    cases h.symm.trans hi

theorem classify_of_matchInstr (h : matchInstr w = some i) : classify w = some i.mnemonic := by
  cases hc : classify w with
  | none => cases (classify_eq_none_iff.1 hc).symm.trans h
  | some m =>
    obtain ⟨r, hfind, rfl⟩ := Option.map_eq_some_iff.1 hc
    have matched : r.matchesWord w = true := List.find?_some (p := fun q : OpcodeRow => q.matchesWord w) hfind
    obtain ⟨j, hj, hop⟩ := (matchesWord_iff_of_mem (List.mem_of_find?_eq_some hfind)).1 matched
    rw [← hop, Option.some.inj (hj.symm.trans h)]

/-- Two rows that match one word name the mnemonic of the one instruction it decodes to. -/
theorem matchesWord_eq_false_of_op_ne {r q : OpcodeRow} (hr : r ∈ opcodeTable) (hq : q ∈ opcodeTable)
    (hne : r.op ≠ q.op) (hrw : r.matchesWord w = true) : q.matchesWord w = false := by
  rw [← Bool.not_eq_true]
  intro hqw
  obtain ⟨i, hi, hir⟩ := (matchesWord_iff_of_mem hr).1 hrw
  obtain ⟨j, hj, hjq⟩ := (matchesWord_iff_of_mem hq).1 hqw
  obtain rfl := Option.some.inj (hi.symm.trans hj)
  exact hne (hir.symm.trans hjq)

/-- Settles O13: a row matches exactly the words that decode to its mnemonic, and no two rows name one mnemonic. -/
theorem opcodeTableAgreesWithDecoder : Obligations.OpcodeTableAgreesWithDecoder :=
  ⟨fun _ => classify_eq_none_iff.trans unmatched_iff.symm,
    fun _ _ h => classify_of_matchInstr (decodeWord_eq_ok_iff.1 h),
    opcodeTable_ops_distinct.imp_of_mem fun hr hq hne _ => matchesWord_eq_false_of_op_ne hr hq hne⟩

/-! ## The keys that no row has (R91 to R95, R97) -/

/-- The major opcodes of R91. -/
def majorOpcodes : List (BitVec 7) :=
  [0x37#7, 0x17#7, 0x6F#7, 0x67#7, 0x63#7, 0x03#7, 0x23#7, 0x13#7, 0x33#7, 0x0F#7, 0x73#7]

theorem matchInstr_of_not_major (h : fOpcode w ∉ majorOpcodes) : matchInstr w = none := by
  unfold matchInstr
  split <;> simp_all [majorOpcodes]

theorem majorOpcodes_low_bits : ∀ op ∈ majorOpcodes, op.extractLsb' 0 2 = 3#2 := by decide

theorem fOpcode_low_bits (w : Word) : (fOpcode w).extractLsb' 0 2 = w.extractLsb' 0 2 := by
  ext i hi
  simp [fOpcode]

theorem not_major_of_low_bits (h : w.extractLsb' 0 2 ≠ 3#2) : fOpcode w ∉ majorOpcodes :=
  fun major => h (fOpcode_low_bits w ▸ majorOpcodes_low_bits _ major)

theorem fFunct3_cases (w : Word) : fFunct3 w = 0#3 ∨ fFunct3 w = 1#3 ∨ fFunct3 w = 2#3 ∨ fFunct3 w = 3#3 ∨
    fFunct3 w = 4#3 ∨ fFunct3 w = 5#3 ∨ fFunct3 w = 6#3 ∨ fFunct3 w = 7#3 := by
  generalize fFunct3 w = k
  revert k
  decide

theorem decodeJalr_eq_none_iff : decodeJalr w = none ↔ fFunct3 w ≠ 0#3 := by
  unfold decodeJalr
  split <;> simp_all

theorem decodeMiscMem_eq_none_iff : decodeMiscMem w = none ↔ fFunct3 w ≠ 0#3 := by
  unfold decodeMiscMem
  split <;> simp_all

theorem decodeBranch_eq_none_iff : decodeBranch w = none ↔ fFunct3 w ∈ [2#3, 3#3] := by
  rcases fFunct3_cases w with h | h | h | h | h | h | h | h <;> simp [decodeBranch, h]

theorem decodeLoad_eq_none_iff : decodeLoad w = none ↔ fFunct3 w ∈ [3#3, 6#3, 7#3] := by
  rcases fFunct3_cases w with h | h | h | h | h | h | h | h <;> simp [decodeLoad, h]

theorem decodeStore_eq_none_iff : decodeStore w = none ↔ fFunct3 w ∈ [3#3, 4#3, 5#3, 6#3, 7#3] := by
  rcases fFunct3_cases w with h | h | h | h | h | h | h | h <;> simp [decodeStore, h]

theorem decodeOpImm_eq_none_iff : decodeOpImm w = none ↔
    fFunct3 w = 1#3 ∧ fFunct7 w ≠ 0x00#7 ∨ fFunct3 w = 5#3 ∧ fFunct7 w ∉ [0x00#7, 0x20#7] := by
  rcases fFunct3_cases w with h | h | h | h | h | h | h | h <;> simp [decodeOpImm, h]
  all_goals split <;> simp_all

theorem decodeOp_eq_none_iff : decodeOp w = none ↔
    fFunct7 w ∉ [0x00#7, 0x20#7] ∨ fFunct7 w = 0x20#7 ∧ fFunct3 w ∉ [0#3, 5#3] := by
  rcases fFunct3_cases w with h | h | h | h | h | h | h | h <;> simp [decodeOp, h]
  all_goals split <;> simp_all [em']

theorem decodeSystemFixed_eq_none_iff :
    decodeSystemFixed w = none ↔ w ≠ 0x00000073#32 ∧ w ≠ 0x30200073#32 := by
  unfold decodeSystemFixed
  split_ifs <;> simp_all

theorem decodeSystem_eq_none_iff : decodeSystem w = none ↔
    fFunct3 w = 4#3 ∨ fFunct3 w = 0#3 ∧ w ≠ 0x00000073#32 ∧ w ≠ 0x30200073#32 := by
  rcases fFunct3_cases w with h | h | h | h | h | h | h | h <;>
    simp [decodeSystem, decodeSystemFixed_eq_none_iff, h]

/-! ## The unmatched words, one lemma per major opcode -/

theorem unmatched_of_not_major (h : fOpcode w ∉ majorOpcodes) : Unmatched w :=
  unmatched_iff.2 (matchInstr_of_not_major h)

theorem unmatched_jalr (hop : fOpcode w = 0x67#7) (h : fFunct3 w ≠ 0#3) : Unmatched w :=
  unmatched_iff.2 ((matchInstr_jalr hop).trans (decodeJalr_eq_none_iff.2 h))

theorem unmatched_branch (hop : fOpcode w = 0x63#7) (h : fFunct3 w ∈ [2#3, 3#3]) : Unmatched w :=
  unmatched_iff.2 ((matchInstr_branch hop).trans (decodeBranch_eq_none_iff.2 h))

theorem unmatched_load (hop : fOpcode w = 0x03#7) (h : fFunct3 w ∈ [3#3, 6#3, 7#3]) : Unmatched w :=
  unmatched_iff.2 ((matchInstr_load hop).trans (decodeLoad_eq_none_iff.2 h))

theorem unmatched_store (hop : fOpcode w = 0x23#7) (h : fFunct3 w ∈ [3#3, 4#3, 5#3, 6#3, 7#3]) : Unmatched w :=
  unmatched_iff.2 ((matchInstr_store hop).trans (decodeStore_eq_none_iff.2 h))

theorem unmatched_miscMem (hop : fOpcode w = 0x0F#7) (h : fFunct3 w ≠ 0#3) : Unmatched w :=
  unmatched_iff.2 ((matchInstr_miscMem hop).trans (decodeMiscMem_eq_none_iff.2 h))

theorem unmatched_op (hop : fOpcode w = 0x33#7)
    (h : fFunct7 w ∉ [0x00#7, 0x20#7] ∨ fFunct7 w = 0x20#7 ∧ fFunct3 w ∉ [0#3, 5#3]) : Unmatched w :=
  unmatched_iff.2 ((matchInstr_op hop).trans (decodeOp_eq_none_iff.2 h))

theorem unmatched_opImm (hop : fOpcode w = 0x13#7)
    (h : fFunct3 w = 1#3 ∧ fFunct7 w ≠ 0x00#7 ∨ fFunct3 w = 5#3 ∧ fFunct7 w ∉ [0x00#7, 0x20#7]) : Unmatched w :=
  unmatched_iff.2 ((matchInstr_opImm hop).trans (decodeOpImm_eq_none_iff.2 h))

theorem unmatched_system (hop : fOpcode w = 0x73#7)
    (h : fFunct3 w = 4#3 ∨ fFunct3 w = 0#3 ∧ w ≠ 0x00000073#32 ∧ w ≠ 0x30200073#32) : Unmatched w :=
  unmatched_iff.2 ((matchInstr_system hop).trans (decodeSystem_eq_none_iff.2 h))

theorem unmatched_named_words :
    ∀ w ∈ [0x00000000#32, 0xFFFFFFFF#32, 0x00100073#32, 0x10200073#32, 0x10500073#32, 0x0000100F#32],
      Unmatched w := by
  simp only [List.forall_mem_cons]
  refine ⟨?zeros, ?ones, ?ebreak, ?sret, ?wfi, ?fenceI, List.forall_mem_nil _⟩
  case zeros | ones => exact unmatched_of_not_major (by decide)
  case ebreak | sret | wfi => exact unmatched_system rfl (.inr (by decide))
  case fenceI => exact unmatched_miscMem rfl (by decide)

/-- Settles O14: the classes are the keys at which the functions of the decision tree answer none. -/
theorem unmatchedWords : Obligations.UnmatchedWords :=
  ⟨fun _ h => unmatched_of_not_major (not_major_of_low_bits h), fun _ => unmatched_of_not_major,
    fun _ => unmatched_jalr, fun _ => unmatched_branch, fun _ => unmatched_load, fun _ => unmatched_store,
    fun _ => unmatched_miscMem,
    fun _ hop h7 => unmatched_op hop (.inl h7), fun _ hop h7 h3 => unmatched_op hop (.inr ⟨h7, h3⟩),
    fun _ hop h3 h7 => unmatched_opImm hop (.inl ⟨h3, h7⟩), fun _ hop h3 h7 => unmatched_opImm hop (.inr ⟨h3, h7⟩),
    fun _ hop h3 => unmatched_system hop (.inl h3),
    fun _ hop h3 notEcall notMret => unmatched_system hop (.inr ⟨h3, notEcall, notMret⟩),
    unmatched_named_words⟩

end Sys2Proof.Machine
end

section
/-! The immediates of a word (30_encoding R82 to R88): where each bit stands, and what the extended immediate reads as. -/

namespace Sys2Proof.Machine

variable (w : Word)

/-! ## The bits of the raw immediates -/

theorem getLsbD_immIRaw {i : Nat} (hi : i < 12) : (immIRaw w).getLsbD i = w.getLsbD (i + 20) := by
  simp [immIRaw, hi, Nat.add_comm]

theorem getLsbD_immSRaw {i : Nat} (hi : i < 12) :
    (immSRaw w).getLsbD i = if i < 5 then w.getLsbD (i + 7) else w.getLsbD (i + 20) := by
  simp only [immSRaw, BitVec.getLsbD_cast, BitVec.getLsbD_append, BitVec.getLsbD_extractLsb']
  interval_cases i <;> rfl

theorem getLsbD_immBRaw {i : Nat} (hi : i < 13) : (immBRaw w).getLsbD i =
    if i = 0 then false else if i < 5 then w.getLsbD (i + 7) else if i < 11 then w.getLsbD (i + 20)
    else if i = 11 then w.getLsbD 7 else w.getLsbD 31 := by
  simp only [immBRaw, BitVec.getLsbD_cast, BitVec.getLsbD_append, BitVec.getLsbD_extractLsb']
  interval_cases i <;> rfl

theorem getLsbD_immJRaw {i : Nat} (hi : i < 21) : (immJRaw w).getLsbD i =
    if i = 0 then false else if i < 11 then w.getLsbD (i + 20) else if i = 11 then w.getLsbD 20
    else if i < 20 then w.getLsbD i else w.getLsbD 31 := by
  simp only [immJRaw, BitVec.getLsbD_cast, BitVec.getLsbD_append, BitVec.getLsbD_extractLsb']
  interval_cases i <;> rfl

theorem getLsbD_immURaw {i : Nat} (hi : i < 20) : (immURaw w).getLsbD i = w.getLsbD (i + 12) := by
  simp [immURaw, hi, Nat.add_comm]

/-! ## The extended immediates -/

@[simp] theorem toInt_sextImm13 (b : BitVec 13) : (sextImm13 b).toInt = b.toInt :=
  BitVec.toInt_signExtend_of_le (by decide)

@[simp] theorem toInt_sextImm21 (j : BitVec 21) : (sextImm21 j).toInt = j.toInt :=
  BitVec.toInt_signExtend_of_le (by decide)

/-- A value whose bit 0 is 0 is even in two's complement: the weight of every other bit is. -/
theorem toInt_even {n : Nat} {v : BitVec (n + 1)} (h : v.getLsbD 0 = false) : v.toInt % 2 = 0 := by
  have even : v.toNat % 2 = 0 := by simpa [BitVec.getLsbD, Nat.testBit_zero] using h
  rw [BitVec.toInt_eq_toNat_cond]
  split <;> omega

theorem toInt_immBRaw_range :
    -4096 ≤ (immBRaw w).toInt ∧ (immBRaw w).toInt ≤ 4094 ∧ (immBRaw w).toInt % 2 = 0 := by
  have even := toInt_even (getLsbD_immBRaw w (i := 0) (by decide))
  have lower := BitVec.le_toInt (immBRaw w)
  have upper := BitVec.toInt_lt (x := immBRaw w)
  omega

theorem toInt_immJRaw_range :
    -1048576 ≤ (immJRaw w).toInt ∧ (immJRaw w).toInt ≤ 1048574 ∧ (immJRaw w).toInt % 2 = 0 := by
  have even := toInt_even (getLsbD_immJRaw w (i := 0) (by decide))
  have lower := BitVec.le_toInt (immJRaw w)
  have upper := BitVec.toInt_lt (x := immJRaw w)
  omega

theorem shiftImm20_immURaw : shiftImm20 (immURaw w) = w &&& 0xFFFFF000#32 := by
  apply BitVec.eq_of_getLsbD_eq
  intro i hi
  simp only [shiftImm20, immURaw, BitVec.getLsbD_cast, BitVec.getLsbD_append, BitVec.getLsbD_extractLsb',
    BitVec.getLsbD_and]
  interval_cases i <;> simp

/-! ## Fields as unsigned numbers -/

theorem toNat_field (lo n : Nat) : (w.extractLsb' lo n).toNat = w.toNat / 2 ^ lo % 2 ^ n := by
  rw [BitVec.extractLsb'_toNat, Nat.shiftRight_eq_div_pow]

theorem shiftAmount_sextImm12 (a : BitVec 12) : shiftAmount (sextImm12 a) = a.toNat % 32 := by
  have lowBits : (sextImm12 a).extractLsb' 0 5 = a.extractLsb' 0 5 := by
    ext i hi
    have inImm : i < 12 := by omega
    simp [sextImm12, BitVec.getLsbD_signExtend, inImm]
    omega
  rw [shiftAmount, lowBits, BitVec.extractLsb'_toNat]
  rfl

theorem shiftAmount_immIRaw : shiftAmount (sextImm12 (immIRaw w)) = w.toNat / 2 ^ 20 % 32 := by
  rw [shiftAmount_sextImm12, immIRaw, toNat_field]
  exact Nat.mod_mod_of_dvd _ (by decide)

theorem toNat_zimm : (zextImm5 (fRs1 w)).toNat = w.toNat / 2 ^ 15 % 32 :=
  (BitVec.toNat_setWidth_of_le (by decide)).trans (toNat_field w 15 5)

theorem toNat_fCsr : (fCsr w).toNat = w.toNat / 2 ^ 20 := by
  have inWord := w.isLt
  rw [fCsr, toNat_field]
  omega

/-- Settles O10: each clause is the lemma above about its immediate. -/
theorem immediateLayouts : Obligations.ImmediateLayouts := by
  intro w
  refine ⟨⟨fun i hi => getLsbD_immIRaw w hi, toInt_sextImm12 _, shiftAmount_immIRaw w⟩,
    ⟨fun i hi => ?_, fun i hi low => ?_, toInt_sextImm12 _⟩,
    ⟨getLsbD_immBRaw w (by decide), getLsbD_immBRaw w (by decide), fun i hi low => ?_, fun i hi low => ?_,
      getLsbD_immBRaw w (by decide), toInt_sextImm13 _, toInt_immBRaw_range w⟩,
    ⟨getLsbD_immJRaw w (by decide), fun i hi low => ?_, getLsbD_immJRaw w (by decide), fun i hi low => ?_,
      getLsbD_immJRaw w (by decide), toInt_sextImm21 _, toInt_immJRaw_range w⟩,
    ⟨fun i hi => getLsbD_immURaw w hi, shiftImm20_immURaw w⟩, toNat_zimm w, toNat_fCsr w⟩
  · rw [getLsbD_immSRaw w (by omega), if_pos hi]
  · rw [getLsbD_immSRaw w hi, if_neg (by omega)]
  · rw [getLsbD_immBRaw w (by omega), if_neg (by omega), if_neg (by omega), if_pos hi]
  · rw [getLsbD_immBRaw w (by omega), if_neg (by omega), if_pos hi]
  · rw [getLsbD_immJRaw w (by omega), if_neg (by omega), if_neg (by omega), if_neg (by omega), if_pos hi]
  · rw [getLsbD_immJRaw w (by omega), if_neg (by omega), if_pos hi]

end Sys2Proof.Machine
end

section
/-! The split of a constant into an upper immediate and an ADDI (30_encoding R100): it adds up, and its two instructions
write the sum to one register and nothing else. -/

namespace Sys2Proof.Machine

variable {s : State} {rd : Reg}

/-! ## The split adds up -/

theorem toNat_lo12 (imm : Word) : (lo12 imm).toNat = imm.toNat % 4096 := BitVec.toNat_setWidth ..

theorem toNat_hi20 (imm : Word) : (hi20 imm).toNat = (imm.toNat + 2048) % 2 ^ 32 / 4096 := by
  simp [hi20, Nat.shiftRight_eq_div_pow]
  omega

theorem toNat_shiftImm20 (imm : BitVec 20) : (shiftImm20 imm).toNat = imm.toNat * 4096 := by
  rw [shiftImm20, BitVec.toNat_cast, BitVec.toNat_append, BitVec.toNat_ofNat, Nat.zero_mod, Nat.or_zero,
    Nat.shiftLeft_eq]

theorem toNat_sextImm12 (a : BitVec 12) :
    (sextImm12 a).toNat = if a.toNat < 2048 then a.toNat else a.toNat + (2 ^ 32 - 4096) := by
  have inWord : a.toNat < 2 ^ 32 := a.isLt.trans (by decide)
  rw [sextImm12, BitVec.toNat_signExtend, BitVec.toNat_setWidth, Nat.mod_eq_of_lt inWord, BitVec.msb_eq_decide]
  by_cases low : a.toNat < 2048
  · simp [low]
  · simp [low, Nat.le_of_not_lt low]

/-- The `0x800` of `hi20` rounds up exactly where `lo12` is negative. -/
theorem shiftImm20_hi20_add_sextImm12_lo12 (imm : Word) : shiftImm20 (hi20 imm) + sextImm12 (lo12 imm) = imm := by
  apply BitVec.eq_of_toNat_eq
  have inWord := imm.isLt
  rw [BitVec.toNat_add, toNat_shiftImm20, toNat_hi20, toNat_sextImm12, toNat_lo12]
  split <;> omega

/-! ## What the expansions do -/

/-- The outcome is a next state in which `rd` reads `v` and every other register, CSR and byte reads as before. -/
def LoadsConstant (s : State) (o : Outcome) (rd : Reg) (v : Word) : Prop :=
  ∃ t, o = .next t ∧ RegWritten s t rd v ∧ SameCsrs s t ∧ SameBytes s t

theorem loadsConstant_addi {imm : BitVec 12} {v : Word} (hv : sextImm12 imm = v) :
    LoadsConstant s (execAll [.addi rd 0 imm] s) rd v := by
  refine ⟨_, rfl, fun r => ?_, fun k => ?_, fun a => ?_⟩
  · simp [State.getX_setX, hv]
  · simp
  · simp

/-- An instruction that writes `u` to `rd`, and an ADDI of `rd` to itself: the sum stands in `rd`, unless `rd` is
`x0`. -/
theorem loadsConstant_upper_addi {i : Instr} {imm : BitVec 12} {u v : Word} (upper : exec i s = retireReg rd u s)
    (hv : u + sextImm12 imm = v) : LoadsConstant s (execAll [i, .addi rd rd imm] s) rd v := by
  refine ⟨_, by rw [execAll, upper]; rfl, fun r => ?_, fun k => ?_, fun a => ?_⟩
  · by_cases hr : r = rd ∧ r ≠ 0#5
    · obtain ⟨rfl, hr⟩ := hr
      simp [hr, hv]
    · simp [State.getX_setX, hr]
  · simp
  · simp

/-- Settles O60: a constant of 12 bits is the ADDI's own, and every other one is split. -/
theorem splitConstantsAreLoaded : Obligations.SplitConstantsAreLoaded := by
  intro s rd imm
  refine ⟨?_, loadsConstant_upper_addi rfl ?_⟩
  · by_cases fits : fitsImm12 imm = true
    · rw [expand, if_pos fits]
      exact loadsConstant_addi (eq_of_beq fits)
    · rw [expand, if_neg fits]
      exact loadsConstant_upper_addi rfl (shiftImm20_hi20_add_sextImm12_lo12 imm)
  · rw [BitVec.add_assoc, shiftImm20_hi20_add_sextImm12_lo12]

end Sys2Proof.Machine
end

section
/-! The pipeline (40_pipeline R112 to R122): the instruction that a step runs, where an instruction goes on, and where it
completes. -/

namespace Sys2Proof.Machine

variable {i : Instr} {s t : State}

/-! ## The program-counter update (R122) -/

theorem State.pcPlus4_eq_ofNat (s : State) : s.pcPlus4 = BitVec.ofNat 32 (s.pc.toNat + 4) := by
  rw [BitVec.ofNat_add, BitVec.ofNat_toNat, BitVec.setWidth_eq]
  rfl

/-- A sequential instruction goes on at `pc + 4`, whatever else it writes. -/
theorem Effect.pc_eq (e : Effect i s t) (sequential : isSequential i = true) : t.pc = s.pcPlus4 := by
  cases e with
  | register _ _ _ _ _ _ _ hp | pcOnly _ _ _ _ _ hp => exact hp sequential
  | csr | store => rfl
  | trap he => subst he; cases sequential

/-- Settles O52: every shape of next state but the trap's is at `pc + 4` when the instruction is sequential. -/
theorem sequentialPc : Obligations.SequentialPc := fun _ s _ sequential h =>
  ((exec_next h).pc_eq sequential).trans s.pcPlus4_eq_ofNat

/-! ## Where an instruction completes (R117, R121) -/

/-- An instruction that accesses no memory ends in a shared end that answers a next state always. -/
theorem exec_completes_of_no_access (s : State) (h : dataAccess i = none) : ∃ t, exec i s = .next t := by
  cases i
  case lb | lh | lw | lbu | lhu | sb | sh | sw => cases h
  all_goals exact ⟨_, rfl⟩

section
variable {c : Config} {w : Width} {addr : Word}

theorem loadOp_completes_iff {ext : Word → Word} {rd : Reg} :
    (∃ t, loadOp c w ext rd addr s = .next t) ↔ accessStop c addr w.bytes = none := by
  simp only [loadOp_next, exists_and_left, exists_eq, and_true]

theorem storeOp_completes_iff {v : Word} :
    (∃ t, storeOp c w addr v s = .next t) ↔ accessStop c addr w.bytes = none := by
  simp only [storeOp_next, exists_and_left, exists_eq, and_true]

end

/-- A load or a store completes where nothing stops its access. -/
theorem exec_completes_iff_accessible {base : Reg} {off : BitVec 12} {n : Nat}
    (h : dataAccess i = some (base, off, n)) :
    (∃ t, exec i s = .next t) ↔ Accessible config (effectiveAddress s base off) n := by
  rw [Accessible, ← accessStop_none_iff]
  obtain ⟨w, rfl, ⟨_, _, _, load⟩ | ⟨_, _, store⟩⟩ := exec_dataAccess (s := s) h
  · rw [load]
    exact loadOp_completes_iff
  · rw [store]
    exact storeOp_completes_iff

/-- Settles O53: the two kinds of instruction, by whether `dataAccess` names an access. -/
theorem whereInstructionsComplete : Obligations.WhereInstructionsComplete :=
  ⟨fun _ s h => exec_completes_of_no_access s h, fun _ _ _ _ _ h => exec_completes_iff_accessible h⟩

/-! ## The instruction that a step runs (R112 to R114) -/

/-- Where the access at `pc` happens, fetch joins the four bytes there. -/
theorem fetch_eq_valueOf_fetchedBytes (h : Accessible config s.pc 4) :
    fetch config s = .ok (valueOf config.byteOrder (fetchedBytes s)) :=
  memRead_eq_ok (w := .word) (accessStop_none_iff.2 h)

@[simp] theorem storeFetchWord_run (c : Config) (s : State) (w : Word) : (storeFetchWord c s w).run = s.run := by
  unfold storeFetchWord
  split <;> rfl

/-- The 32 bits of a word are the word. -/
theorem State.withFetchWord_toNat (s : State) (w : Word) : s.withFetchWord 32 w.toNat = storeFetchWord config s w := by
  rw [State.withFetchWord, Nat.mod_eq_of_lt w.isLt, BitVec.ofNat_toNat, BitVec.setWidth_eq]

theorem step_of_fetchedBytes (running : s.run = .running) (accessible : Accessible config s.pc 4)
    (decodes : decodeBytes config.byteOrder (fetchedBytes s) = .ok (i, [])) : step s = exec i s :=
  step_eq_exec (nextInstr_eq_ok.2
    ⟨running, _, fetch_eq_valueOf_fetchedBytes accessible, decodeBytes_ok.1 decodes⟩)

theorem step_of_withFetchWord (running : s.run = .running) (accessible : Accessible config s.pc 4)
    (wellFormed : i.wf = true) : step (s.withFetchWord 32 (encode i).toNat) =
      exec i (s.withFetchWord 32 (encode i).toNat) := by
  rw [State.withFetchWord_toNat]
  exact step_of_fetch_encode ((storeFetchWord_run _ _ _).trans running)
    (fetch_storeFetchWord _ (accessStop_none_iff.2 accessible)) wellFormed

/-- Settles O16: the fetched word is that of the bytes at `pc`, or the word stored there, and it decodes to `i`. -/
theorem stepRunsDecodedInstruction : Obligations.StepRunsDecodedInstruction :=
  ⟨fun _ _ => step_of_fetchedBytes, fun _ _ => step_of_withFetchWord⟩

end Sys2Proof.Machine
end

section
/-! The integer ALU (41_alu R141 to R159): the rows its words match, the one register its instructions write, and each
result as the number, or bit by bit the word, that its rule gives. -/

namespace Sys2Proof.Machine

variable {i : Instr} {s : State}

/-! ## The words of a row, by the encoder (R90, R96) -/

section
variable {p : Word} {f : Word → Instr}

/-- A row that compares `funct7` decodes to the instruction whose word has the keys of the pattern. -/
theorem rowDecodes_of_encR (hp : p &&& 0xFE00707F#32 = p)
    (h : ∀ w, (f w).wf = true ∧ encode (f w) = encR (fFunct7 p) (fRs2 w) (fRs1 w) (fFunct3 p) (fRd w) (fOpcode p)) :
    RowDecodes 0xFE00707F#32 p f := by
  intro w hw
  obtain ⟨hop, h3, h7⟩ := fields_of_funct7_row hp hw
  obtain ⟨hwf, henc⟩ := h w
  exact decodeWord_eq_ok_iff_encode.2 ⟨hwf, henc.trans (encR_of_keys hop h3 h7)⟩

/-- A row with a 12-bit immediate decodes to the instruction whose word has the keys of the pattern. -/
theorem rowDecodes_of_encI (hp : p &&& 0x0000707F#32 = p)
    (h : ∀ w, (f w).wf = true ∧ encode (f w) = encI (immIRaw w) (fRs1 w) (fFunct3 p) (fRd w) (fOpcode p)) :
    RowDecodes 0x0000707F#32 p f := by
  intro w hw
  obtain ⟨hop, h3⟩ := fields_of_funct3_row hp hw
  obtain ⟨hwf, henc⟩ := h w
  exact decodeWord_eq_ok_iff_encode.2 ⟨hwf, henc.trans (encI_of_keys hop h3)⟩

end

/-! ## An end that writes a register and `pc` changes nothing else -/

theorem writesRegOnly_of_next {rd : Reg} {u v p : Word} (h : exec i s = .next ((s.setX rd u).setPc p)) (hv : u = v) :
    WritesRegOnly i s rd v p := by
  subst hv
  exact ⟨_, h, fun r => s.getX_setX rd r u, rfl, s.setX_getCsr rd u, s.setX_byteAt rd u, s.setX_run rd u⟩

/-- The shared end of the ALU instructions, which goes on at `pc + 4`. -/
theorem writesRegOnly_of_retireReg {rd : Reg} {u v : Word} (h : exec i s = retireReg rd u s) (hv : u = v) :
    WritesRegOnly i s rd v (s.pc + 4#32) :=
  writesRegOnly_of_next h hv

/-! ## Sums and differences modulo 2^32 -/

theorem ofInt_toNat (a : Word) : BitVec.ofInt 32 a.toNat = a := by
  rw [BitVec.ofInt_natCast, BitVec.ofNat_toNat, BitVec.setWidth_eq]

theorem sub_eq_ofInt (a b : Word) : a - b = BitVec.ofInt 32 (a.toNat - b.toNat) := by
  rw [Int.sub_eq_add_neg, BitVec.ofInt_add, BitVec.ofInt_neg, ofInt_toNat, ofInt_toNat, BitVec.sub_eq_add_neg]

/-- The sign-extended immediate is the word of its integer. -/
theorem sextImm12_eq_ofInt (imm : BitVec 12) : sextImm12 imm = BitVec.ofInt 32 imm.toInt := by
  rw [← toInt_sextImm12, BitVec.ofInt_toInt]

theorem add_sextImm12_eq_ofInt (a : Word) (imm : BitVec 12) :
    a + sextImm12 imm = BitVec.ofInt 32 (a.toNat + imm.toInt) := by
  rw [BitVec.ofInt_add, ofInt_toNat, sextImm12_eq_ofInt]

/-- Settles O21: the sum and the difference of the unsigned readings, modulo 2^32. -/
theorem addAndSub : Obligations.AddAndSub :=
  ⟨rowDecodes_of_encR rfl fun _ => ⟨rfl, rfl⟩, rowDecodes_of_encR rfl fun _ => ⟨rfl, rfl⟩, fun s _ rs1 rs2 =>
    ⟨writesRegOnly_of_retireReg rfl (BitVec.add_def (s.getX rs1) (s.getX rs2)),
      writesRegOnly_of_retireReg rfl (sub_eq_ofInt (s.getX rs1) (s.getX rs2))⟩⟩

/-! ## Results bit by bit -/

theorem bitwise_and (a b : Word) : Bitwise and a b (a &&& b) := fun _ _ => BitVec.getLsbD_and

theorem bitwise_or (a b : Word) : Bitwise or a b (a ||| b) := fun _ _ => BitVec.getLsbD_or

theorem bitwise_xor (a b : Word) : Bitwise xor a b (a ^^^ b) := fun _ _ => BitVec.getLsbD_xor

/-- Settles O22: the words that the library's bitwise operations make, bit by bit. -/
theorem bitwiseRegisterForms : Obligations.BitwiseRegisterForms :=
  ⟨rowDecodes_of_encR rfl fun _ => ⟨rfl, rfl⟩, rowDecodes_of_encR rfl fun _ => ⟨rfl, rfl⟩,
    rowDecodes_of_encR rfl fun _ => ⟨rfl, rfl⟩, fun _ _ _ _ =>
    ⟨⟨_, bitwise_and _ _, writesRegOnly_of_retireReg rfl rfl⟩, ⟨_, bitwise_or _ _, writesRegOnly_of_retireReg rfl rfl⟩,
      ⟨_, bitwise_xor _ _, writesRegOnly_of_retireReg rfl rfl⟩⟩⟩

/-- Settles O23: the immediate enters each result as the word of its integer. -/
theorem immediateArithmetic : Obligations.ImmediateArithmetic := by
  refine ⟨rowDecodes_of_encI rfl fun _ => ⟨rfl, rfl⟩, rowDecodes_of_encI rfl fun _ => ⟨rfl, rfl⟩,
    rowDecodes_of_encI rfl fun _ => ⟨rfl, rfl⟩, rowDecodes_of_encI rfl fun _ => ⟨rfl, rfl⟩, fun s _ rs1 imm => ?_⟩
  rw [← sextImm12_eq_ofInt]
  exact ⟨writesRegOnly_of_retireReg rfl (add_sextImm12_eq_ofInt (s.getX rs1) imm),
    ⟨_, bitwise_and _ _, writesRegOnly_of_retireReg rfl rfl⟩, ⟨_, bitwise_or _ _, writesRegOnly_of_retireReg rfl rfl⟩,
    ⟨_, bitwise_xor _ _, writesRegOnly_of_retireReg rfl rfl⟩⟩

/-! ## Shifts as products and quotients by a power of two -/

theorem shiftAmount_eq_mod (v : Word) : shiftAmount v = v.toNat % 32 := by
  rw [shiftAmount, toNat_field, pow_zero, Nat.div_one]
  rfl

theorem shiftLeft_eq_ofNat (a : Word) (n : Nat) : a <<< n = BitVec.ofNat 32 (a.toNat * 2 ^ n) := by
  rw [← Nat.shiftLeft_eq]
  rfl

theorem ushiftRight_eq_ofNat (a : Word) (n : Nat) : a >>> n = BitVec.ofNat 32 (a.toNat / 2 ^ n) := by
  rw [← Nat.shiftRight_eq_div_pow, ← BitVec.toNat_ushiftRight, BitVec.ofNat_toNat, BitVec.setWidth_eq]

/-- The quotient of the two's-complement reading is the floor, since the divisor is positive. -/
theorem sshiftRight_eq_ofInt (a : Word) (n : Nat) : a.sshiftRight n = BitVec.ofInt 32 (a.toInt / 2 ^ n) := by
  rw [BitVec.sshiftRight_eq, Int.shiftRight_eq_div_pow, Int.natCast_pow]
  rfl

/-- Settles O24: `shiftAmount` is the remainder modulo 32. -/
theorem registerShifts : Obligations.RegisterShifts := by
  refine ⟨rowDecodes_of_encR rfl fun _ => ⟨rfl, rfl⟩, rowDecodes_of_encR rfl fun _ => ⟨rfl, rfl⟩,
    rowDecodes_of_encR rfl fun _ => ⟨rfl, rfl⟩, fun s _ rs1 rs2 => ?_⟩
  rw [← shiftAmount_eq_mod]
  exact ⟨writesRegOnly_of_retireReg rfl (shiftLeft_eq_ofNat (s.getX rs1) _),
    writesRegOnly_of_retireReg rfl (ushiftRight_eq_ofNat (s.getX rs1) _),
    writesRegOnly_of_retireReg rfl (sshiftRight_eq_ofInt (s.getX rs1) _)⟩

/-- Settles O25: the amount stands in the place of `rs2`, and the rows compare `funct7`. -/
theorem immediateShifts : Obligations.ImmediateShifts :=
  ⟨rowDecodes_of_encR rfl fun _ => ⟨rfl, rfl⟩, rowDecodes_of_encR rfl fun _ => ⟨rfl, rfl⟩,
    rowDecodes_of_encR rfl fun _ => ⟨rfl, rfl⟩, fun s _ rs1 shamt =>
    ⟨writesRegOnly_of_retireReg rfl (shiftLeft_eq_ofNat (s.getX rs1) shamt.toNat),
      writesRegOnly_of_retireReg rfl (ushiftRight_eq_ofNat (s.getX rs1) shamt.toNat),
      writesRegOnly_of_retireReg rfl (sshiftRight_eq_ofInt (s.getX rs1) shamt.toNat)⟩⟩

/-! ## Comparisons -/

theorem boolWord_decide (q : Prop) [Decidable q] : boolWord (decide q) = if q then 1#32 else 0#32 := by
  simp [boolWord]

theorem boolWord_ltSigned (a b : Word) : boolWord (ltSigned a b) = if a.toInt < b.toInt then 1#32 else 0#32 :=
  boolWord_decide _

theorem boolWord_ltUnsigned (a b : Word) : boolWord (ltUnsigned a b) = if a.toNat < b.toNat then 1#32 else 0#32 :=
  boolWord_decide _

/-- Settles O26: the extension of SLTI's immediate keeps its integer. -/
theorem comparisons : Obligations.Comparisons := by
  refine ⟨rowDecodes_of_encR rfl fun _ => ⟨rfl, rfl⟩, rowDecodes_of_encR rfl fun _ => ⟨rfl, rfl⟩,
    rowDecodes_of_encI rfl fun _ => ⟨rfl, rfl⟩, fun s _ rs1 rs2 imm => ?_⟩
  rw [← toInt_sextImm12 imm]
  exact ⟨writesRegOnly_of_retireReg rfl (boolWord_ltSigned (s.getX rs1) (s.getX rs2)),
    writesRegOnly_of_retireReg rfl (boolWord_ltUnsigned (s.getX rs1) (s.getX rs2)),
    writesRegOnly_of_retireReg rfl (boolWord_ltSigned (s.getX rs1) (sextImm12 imm))⟩

/-- The unsigned reading of the sign-extended immediate. -/
theorem toNat_sextImm12_eq_emod (imm : BitVec 12) : ((sextImm12 imm).toNat : Int) = imm.toInt % 2 ^ 32 := by
  rw [sextImm12_eq_ofInt, BitVec.toNat_ofInt, Int.toNat_of_nonneg (Int.emod_nonneg _ (by decide))]
  rfl

/-- Settles O27: SLTIU compares with the unsigned reading of the sign-extended immediate. -/
theorem sltiuComparison : Obligations.SltiuComparison := by
  refine ⟨rowDecodes_of_encI rfl fun _ => ⟨rfl, rfl⟩, fun s _ rs1 imm => ?_⟩
  simp only [← toNat_sextImm12_eq_emod, Int.ofNat_lt]
  exact writesRegOnly_of_retireReg rfl (boolWord_ltUnsigned (s.getX rs1) (sextImm12 imm))

end Sys2Proof.Machine
end

section
/-! The conditional branches (42_branch R170 to R176): the rows their words match, the condition of each as the order of
the operands' readings, and the one shared end that writes `pc` and nothing else. -/

namespace Sys2Proof.Machine

variable {i : Instr} {s : State}

/-- A row of the B format decodes to the instruction whose word has the keys of the pattern: bit 0 of the decoded
offset is 0, so the instruction is well-formed. -/
theorem rowDecodes_of_encB {p : Word} {f : Word → Instr} (hp : p &&& 0x0000707F#32 = p)
    (h : ∀ w, (f w).wf = branchOffsetOk (immBRaw w) ∧
      encode (f w) = encB (immBRaw w) (fRs2 w) (fRs1 w) (fFunct3 p) (fOpcode p)) :
    RowDecodes 0x0000707F#32 p f := by
  intro w hw
  obtain ⟨hop, h3⟩ := fields_of_funct3_row hp hw
  obtain ⟨hwf, henc⟩ := h w
  exact decodeWord_eq_ok_iff_encode.2 ⟨hwf.trans (branchOffsetOk_immBRaw w), henc.trans (encB_of_keys hop h3)⟩

/-! ## An end that writes `pc` changes nothing else (R170) -/

theorem movesPcOnly_of_retireTo {p : Word} (h : exec i s = retireTo p s) : MovesPcOnly i s p :=
  ⟨_, h, rfl, s.setPc_getX p, s.setPc_getCsr p, s.setPc_byteAt p, rfl⟩

/-- The target is the sum of the branch's own `pc` and the signed offset, modulo 2^32. -/
theorem add_sextImm13_eq_ofInt (a : Word) (imm : BitVec 13) :
    a + sextImm13 imm = BitVec.ofInt 32 (a.toNat + imm.toInt) := by
  rw [BitVec.ofInt_add, ofInt_toNat, ← toInt_sextImm13, BitVec.ofInt_toInt]

/-- The shared end of the branches, whose condition says `q`. -/
theorem movesPcOnly_of_branchOp {q : Prop} [Decidable q] {taken : Bool} {imm : BitVec 13}
    (h : exec i s = branchOp taken (sextImm13 imm) s) (hq : taken = true ↔ q) :
    MovesPcOnly i s (if q then BitVec.ofInt 32 (s.pc.toNat + imm.toInt) else s.pc + 4#32) := by
  simp only [← add_sextImm13_eq_ofInt, ← hq]
  exact movesPcOnly_of_retireTo h

/-- Settles O31: BNE is taken on the negation of BEQ's condition. -/
theorem equalityBranches : Obligations.EqualityBranches := by
  refine ⟨rowDecodes_of_encB rfl fun _ => ⟨rfl, rfl⟩, rowDecodes_of_encB rfl fun _ => ⟨rfl, rfl⟩,
    fun s rs1 rs2 imm => ⟨movesPcOnly_of_branchOp rfl beq_iff_eq, ?_⟩⟩
  rw [← ite_not]
  exact movesPcOnly_of_branchOp rfl bne_iff_ne

/-! ## The conditions as orders of the readings (R173 to R176) -/

theorem ltSigned_iff {a b : Word} : ltSigned a b = true ↔ a.toInt < b.toInt := BitVec.slt_iff_toInt_lt

theorem ltUnsigned_iff {a b : Word} : ltUnsigned a b = true ↔ a.toNat < b.toNat := BitVec.ult_iff_lt

theorem not_ltSigned_iff {a b : Word} : (!ltSigned a b) = true ↔ b.toInt ≤ a.toInt := by
  rw [Bool.not_eq_true', ← Bool.not_eq_true, ltSigned_iff, Int.not_lt]

theorem not_ltUnsigned_iff {a b : Word} : (!ltUnsigned a b) = true ↔ b.toNat ≤ a.toNat := by
  rw [Bool.not_eq_true', ← Bool.not_eq_true, ltUnsigned_iff, Nat.not_lt]

/-- Settles O32: BGE is taken on equal operands too, where BLT is not. -/
theorem signedBranches : Obligations.SignedBranches :=
  ⟨rowDecodes_of_encB rfl fun _ => ⟨rfl, rfl⟩, rowDecodes_of_encB rfl fun _ => ⟨rfl, rfl⟩, fun _ _ _ _ =>
    ⟨movesPcOnly_of_branchOp rfl ltSigned_iff, movesPcOnly_of_branchOp rfl not_ltSigned_iff⟩⟩

/-- Settles O33: as for the signed branches, with the unsigned readings. -/
theorem unsignedBranches : Obligations.UnsignedBranches :=
  ⟨rowDecodes_of_encB rfl fun _ => ⟨rfl, rfl⟩, rowDecodes_of_encB rfl fun _ => ⟨rfl, rfl⟩, fun _ _ _ _ =>
    ⟨movesPcOnly_of_branchOp rfl ltUnsigned_iff, movesPcOnly_of_branchOp rfl not_ltUnsigned_iff⟩⟩

end Sys2Proof.Machine
end

section
/-! The loads and the stores (43_load_store R190 to R201): the one addressing mode, the rows their words match, what a
load writes and a store stores, where both stop, and that a load reads back what a store of its width left. -/

namespace Sys2Proof.Machine

variable {i : Instr} {s t : State} {w : Width} {base rd : Reg} {off : BitVec 12}

/-! ## The addressing mode (R190) -/

theorem effectiveAddress_eq_ofInt (s : State) (rs1 : Reg) (imm : BitVec 12) :
    effectiveAddress s rs1 imm = BitVec.ofInt 32 ((s.getX rs1).toNat + imm.toInt) :=
  add_sextImm12_eq_ofInt (s.getX rs1) imm

theorem isSequential_of_dataAccess {access : Reg × BitVec 12 × Nat} (h : dataAccess i = some access) :
    isSequential i = true := by
  cases i
  case beq | bne | blt | bge | bltu | bgeu | jal | jalr | ecall => cases h
  all_goals rfl

theorem destReg_eq_none_of_isStore (h : isStore i = true) : destReg i = none :=
  Option.isNone_iff_eq_none.1 (Bool.and_eq_true_iff.1 h).2

/-- Settles O34 (the model has the name `effectiveAddress`): the registers and `pc` of the shapes of a next state, for
the instructions that access memory. -/
theorem effectiveAddressRule : Obligations.EffectiveAddress :=
  ⟨effectiveAddress_eq_ofInt, fun _ _ _ _ _ _ access h =>
    ⟨fun _ => (exec_next h).getX_eq, destReg_eq_none_of_isStore,
      (exec_next h).pc_eq (isSequential_of_dataAccess access)⟩⟩

/-! ## The words of a store's row (R90, R96) -/

/-- A row of the S format decodes to the instruction whose word has the keys of the pattern. -/
theorem rowDecodes_of_encS {p : Word} {f : Word → Instr} (hp : p &&& 0x0000707F#32 = p)
    (h : ∀ w, (f w).wf = true ∧ encode (f w) = encS (immSRaw w) (fRs2 w) (fRs1 w) (fFunct3 p) (fOpcode p)) :
    RowDecodes 0x0000707F#32 p f := by
  intro w hw
  obtain ⟨hop, h3⟩ := fields_of_funct3_row hp hw
  obtain ⟨hwf, henc⟩ := h w
  exact decodeWord_eq_ok_iff_encode.2 ⟨hwf, henc.trans (encS_of_keys hop h3)⟩

/-! ## An end that writes bytes and `pc` changes nothing else (R192) -/

theorem storesOnly_of_next {a : Nat} {bs bs' : List Byte}
    (h : exec i s = .next ((s.setMem (writeBytes s.mem a bs)).setPc s.pcPlus4)) (hbs : bs = bs') :
    StoresOnly i s a bs' := by
  subst hbs
  refine ⟨_, h, fun k hk => ?_, fun _ => get_writeBytes_outside, rfl, fun _ => rfl, fun _ => rfl, rfl⟩
  rw [State.setPc_byteAt, State.setMem_byteAt, get_writeBytes, if_pos (by omega), Nat.add_sub_cancel_left]

/-! ## Where a data access stops (R191, R192) -/

theorem dataAccessStops_of_dataAccess {n : Nat} (access : dataAccess i = some (base, off, n)) :
    DataAccessStops i s (effectiveAddress s base off) n :=
  ⟨fun hm ha => exec_of_accessStop access (accessStop_misaligned hm ha),
    fun ha below => exec_of_accessStop access ((accessStop_eq_boundsStop ha).trans (boundsStop_bus below)),
    fun ha above past =>
      exec_of_accessStop access ((accessStop_eq_boundsStop ha).trans (boundsStop_memory above past))⟩

/-! ## The value that a load writes (R193 to R197) -/

theorem valueOf_readBytes_eq_ofNat (bo : ByteOrder) (m : Memory) (a : Nat) (w : Width) :
    valueOf bo (readBytes m a w.bytes) = BitVec.ofNat 32 (readValue bo m a w) := by
  rw [← toNat_valueOf_readBytes, BitVec.ofNat_toNat, BitVec.setWidth_eq]

theorem sext8_ofNat_toNat (b : Byte) : sext8 (BitVec.ofNat 32 b.toNat) = BitVec.ofInt 32 b.toInt := by
  rw [sext8, BitVec.setWidth_ofNat_of_le (by decide), BitVec.ofNat_toNat, BitVec.setWidth_eq]
  rfl

theorem sext16_ofNat (n : Nat) : sext16 (BitVec.ofNat 32 n) = BitVec.ofInt 32 (BitVec.ofNat 16 n).toInt := by
  rw [sext16, BitVec.setWidth_ofNat_of_le (by decide)]
  rfl

theorem zext8_ofNat {n : Nat} (h : n < 2 ^ 8) : zext8 (BitVec.ofNat 32 n) = BitVec.ofNat 32 n := by
  rw [zext8, BitVec.setWidth_ofNat_of_le (by decide), BitVec.setWidth_ofNat_of_le_of_lt (by decide) h]

theorem zext16_ofNat {n : Nat} (h : n < 2 ^ 16) : zext16 (BitVec.ofNat 32 n) = BitVec.ofNat 32 n := by
  rw [zext16, BitVec.setWidth_ofNat_of_le (by decide), BitVec.setWidth_ofNat_of_le_of_lt (by decide) h]

theorem halfValue_lt (bo : ByteOrder) (m : Memory) (a : Nat) : halfValue bo m a < 2 ^ 16 := by
  have first := (SparseMap.get m a).isLt
  have second := (SparseMap.get m (a + 1)).isLt
  cases bo <;> simp only [halfValue] <;> omega

/-- Where its access happens, a load writes the extension of the value read. -/
theorem loadOp_of_accessible {c : Config} {ext : Word → Word} {a : Word} (h : Accessible c a w.bytes) :
    loadOp c w ext rd a s = retireReg rd (ext (BitVec.ofNat 32 (readValue c.byteOrder s.mem a.toNat w))) s := by
  rw [loadOp_eq, accessStop_none_iff.2 h, valueOf_readBytes_eq_ofNat]

section
variable {a v : Word} (ha : a = BitVec.ofInt 32 ((s.getX base).toNat + off.toInt))
  (access : dataAccess i = some (base, off, w.bytes))
include ha access

/-- The shared end of the loads, at the address that the operands give. -/
theorem loadsOrStops_of_loadOp {ext : Word → Word}
    (load : exec i s = loadOp config w ext rd (effectiveAddress s base off) s)
    (hv : ext (BitVec.ofNat 32 (readValue config.byteOrder s.mem a.toNat w)) = v) :
    LoadsOrStops i s rd a w.bytes v := by
  rw [← effectiveAddress_eq_ofInt] at ha
  subst ha
  exact ⟨fun accessible => writesRegOnly_of_retireReg (load.trans (loadOp_of_accessible accessible)) hv,
    dataAccessStops_of_dataAccess access⟩

/-- The shared end of the stores, at the address that the operands give. -/
theorem storesOrStops_of_storeOp (store : exec i s = storeOp config w (effectiveAddress s base off) v s) :
    StoresOrStops i s a w v := by
  rw [← effectiveAddress_eq_ofInt] at ha
  subst ha
  refine ⟨fun accessible => ?_, dataAccessStops_of_dataAccess access⟩
  exact storesOnly_of_next (store.trans (storeOp_next.2 ⟨accessStop_none_iff.2 accessible, rfl⟩))
    (bytesOf_eq_storedBytes _ w v)

end

/-- Settles O35: a byte is below 256, so its zero extension keeps its number. -/
theorem byteLoads : Obligations.ByteLoads :=
  ⟨rowDecodes_of_encI rfl fun _ => ⟨rfl, rfl⟩, rowDecodes_of_encI rfl fun _ => ⟨rfl, rfl⟩, fun _ _ _ _ _ ha =>
    ⟨loadsOrStops_of_loadOp (w := .byte) ha rfl rfl (sext8_ofNat_toNat _),
      loadsOrStops_of_loadOp (w := .byte) ha rfl rfl (zext8_ofNat (BitVec.isLt _))⟩⟩

/-- Settles O36: a halfword is below 65536, so its zero extension keeps its number. -/
theorem halfwordLoads : Obligations.HalfwordLoads :=
  ⟨rowDecodes_of_encI rfl fun _ => ⟨rfl, rfl⟩, rowDecodes_of_encI rfl fun _ => ⟨rfl, rfl⟩, fun s _ _ _ a ha =>
    ⟨loadsOrStops_of_loadOp (w := .half) ha rfl rfl (sext16_ofNat _),
      loadsOrStops_of_loadOp (w := .half) ha rfl rfl (zext16_ofNat (halfValue_lt config.byteOrder s.mem a.toNat))⟩⟩

/-- Settles O37: LW writes the value read as it is. -/
theorem wordLoad : Obligations.WordLoad :=
  ⟨rowDecodes_of_encI rfl fun _ => ⟨rfl, rfl⟩, fun _ _ _ _ _ ha =>
    loadsOrStops_of_loadOp (w := .word) ha rfl rfl rfl⟩

/-- Settles O38: the bytes that SB writes are R59's one low byte, in either order. -/
theorem byteStore : Obligations.ByteStore :=
  ⟨rowDecodes_of_encS rfl fun _ => ⟨rfl, rfl⟩, fun _ _ _ _ _ ha => storesOrStops_of_storeOp ha rfl rfl⟩

/-- Settles O39: the bytes that SH writes are R59's two low bytes in `BYTE_ORDER`. -/
theorem halfwordStore : Obligations.HalfwordStore :=
  ⟨rowDecodes_of_encS rfl fun _ => ⟨rfl, rfl⟩, fun _ _ _ _ _ ha => storesOrStops_of_storeOp ha rfl rfl⟩

/-- Settles O40: the bytes that SW writes are R59's four bytes in `BYTE_ORDER`. -/
theorem wordStore : Obligations.WordStore :=
  ⟨rowDecodes_of_encS rfl fun _ => ⟨rfl, rfl⟩, fun _ _ _ _ _ ha => storesOrStops_of_storeOp ha rfl rfl⟩

/-! ## A load after a store of its width (R201) -/

/-- The low bits of a value that is cut to its low bits. -/
theorem setWidth_truncate (w : Width) (v : Word) :
    (w.truncate v).setWidth (8 * w.bytes) = v.setWidth (8 * w.bytes) := by
  cases w <;> simp [Width.truncate, Width.bytes]

/-- A store leaves the low bits of its value where a load of its width and address writes their extension to `rd`. -/
theorem loadOp_after_storeOp {c : Config} {ext : Word → Word} {a v : Word} (stored : storeOp c w a v s = .next t) :
    loadOp c w ext rd a t = retireReg rd (ext (w.truncate v)) t := by
  obtain ⟨ok, rfl⟩ := storeOp_next.1 stored
  rw [loadOp, State.setPc_mem, State.setMem_mem, memRead_writeBytes v ok]

/-- A store changes no register, so no address either. -/
theorem effectiveAddress_after_storeOp {c : Config} {a v : Word} (stored : storeOp c w a v s = .next t) :
    effectiveAddress t base off = effectiveAddress s base off := by
  obtain ⟨_, rfl⟩ := storeOp_next.1 stored
  rfl

/-- A load instruction after a store of its width at its address. -/
theorem regWritten_of_load_after_store {ext : Word → Word} {a v u : Word} (stored : storeOp config w a v s = .next t)
    (ha : a = effectiveAddress s base off) (load : exec i t = loadOp config w ext rd (effectiveAddress t base off) t)
    (hu : ext (w.truncate v) = u) : ∃ t', exec i t = .next t' ∧ RegWritten t t' rd u := by
  rw [effectiveAddress_after_storeOp stored, ← ha, loadOp_after_storeOp stored] at load
  obtain ⟨t', next, written, _⟩ := writesRegOnly_of_retireReg load hu
  exact ⟨t', next, written⟩

/-- Settles O41: the extensions of the loads see only the low bits that the stores leave. -/
theorem storeThenLoad : Obligations.StoreThenLoad := by
  rintro s b b' rd src off off' a v rfl ha' rfl
  have completes (w : Width) (accessible : Accessible config (effectiveAddress s b off) w.bytes) :
      ∃ t, storeOp config w (effectiveAddress s b off) (s.getX src) s = .next t :=
    storeOp_completes_iff.2 (accessStop_none_iff.2 accessible)
  refine ⟨fun accessible => ?byte, fun accessible => ?half, fun accessible => ?word⟩
  case byte =>
    obtain ⟨t, stored⟩ := completes .byte accessible
    have lowBits := setWidth_truncate .byte (s.getX src)
    exact ⟨t, stored, regWritten_of_load_after_store stored ha' rfl (congrArg (BitVec.signExtend 32) lowBits),
      regWritten_of_load_after_store stored ha' rfl (congrArg (BitVec.setWidth 32) lowBits)⟩
  case half =>
    obtain ⟨t, stored⟩ := completes .half accessible
    have lowBits := setWidth_truncate .half (s.getX src)
    exact ⟨t, stored, regWritten_of_load_after_store stored ha' rfl (congrArg (BitVec.signExtend 32) lowBits),
      regWritten_of_load_after_store stored ha' rfl (congrArg (BitVec.setWidth 32) lowBits)⟩
  case word =>
    obtain ⟨t, stored⟩ := completes .word accessible
    exact ⟨t, stored, regWritten_of_load_after_store stored ha' rfl (truncate_word _)⟩

end Sys2Proof.Machine
end

section
/-! The jumps (44_jump R210, R211): the rows their words match, the link register and `pc` as all they write, and their
targets as sums of the unsigned reading of the base and the signed offset, modulo 2^32. -/

namespace Sys2Proof.Machine

variable {i : Instr} {s : State}

/-- The shared end of the jumps writes the link and goes on at the target. -/
theorem writesRegOnly_of_jumpOp {rd : Reg} {target p : Word} (h : exec i s = jumpOp rd target s) (hp : target = p) :
    WritesRegOnly i s rd (s.pc + 4#32) p := by
  subst hp
  exact writesRegOnly_of_next h rfl

theorem add_sextImm21_eq_ofInt (a : Word) (imm : BitVec 21) :
    a + sextImm21 imm = BitVec.ofInt 32 (a.toNat + imm.toInt) := by
  rw [BitVec.ofInt_add, ofInt_toNat, ← toInt_sextImm21, BitVec.ofInt_toInt]

/-- Settles O29: the target is the sum of JAL's own `pc` and the signed offset. -/
theorem jumpAndLink : Obligations.JumpAndLink :=
  ⟨fun _ hw => decodeWord_eq_ok_iff.2 (matchInstr_jal (fields_of_opcode_row rfl hw)), fun s _ imm =>
    writesRegOnly_of_jumpOp rfl (add_sextImm21_eq_ofInt s.pc imm)⟩

/-- Clearing bit 0 of the word of an integer rounds the integer down to even, since 2^32 is even. -/
theorem ofInt_and_clearBit0 (z : Int) : BitVec.ofInt 32 z &&& 0xFFFFFFFE#32 = BitVec.ofInt 32 (z / 2 * 2) := by
  have mask : 0xFFFFFFFE#32 = BitVec.allOnes 32 <<< 1 := rfl
  rw [mask, ← BitVec.shiftLeft_ushiftRight, ushiftRight_eq_ofNat, shiftLeft_eq_ofNat]
  apply BitVec.eq_of_toNat_eq
  simp only [BitVec.toNat_ofNat, BitVec.toNat_ofInt]
  omega

theorem jalrTarget_eq_ofInt (s : State) (rs1 : Reg) (imm : BitVec 12) :
    jalrTarget s rs1 imm = BitVec.ofInt 32 (((s.getX rs1).toNat + imm.toInt) / 2 * 2) := by
  rw [jalrTarget, add_sextImm12_eq_ofInt, ofInt_and_clearBit0]

/-- Settles O30: the target is that of the state before the link is written, so `rd` may be `rs1`. -/
theorem jumpAndLinkRegister : Obligations.JumpAndLinkRegister :=
  ⟨rowDecodes_of_encI rfl fun _ => ⟨rfl, rfl⟩, fun s _ rs1 imm =>
    writesRegOnly_of_jumpOp rfl (jalrTarget_eq_ofInt s rs1 imm)⟩

end Sys2Proof.Machine
end

section
/-! The upper immediates (45_upper_imm R220, R221): the rows their words match, and the immediate shifted by 12 as the
product with 4096, alone or added to the unsigned reading of `pc` modulo 2^32. -/

namespace Sys2Proof.Machine

/-- A row of the U format decodes to the instruction whose word has the opcode of the pattern. -/
theorem rowDecodes_of_encU {p : Word} {f : Word → Instr} (hp : p &&& 0x0000007F#32 = p)
    (h : ∀ w, (f w).wf = true ∧ encode (f w) = encU (immURaw w) (fRd w) (fOpcode p)) :
    RowDecodes 0x0000007F#32 p f := by
  intro w hw
  obtain ⟨hwf, henc⟩ := h w
  exact decodeWord_eq_ok_iff_encode.2 ⟨hwf, henc.trans (encU_of_keys (fields_of_opcode_row hp hw))⟩

theorem shiftImm20_eq_ofNat (imm : BitVec 20) : shiftImm20 imm = BitVec.ofNat 32 (imm.toNat * 4096) := by
  rw [← toNat_shiftImm20, BitVec.ofNat_toNat, BitVec.setWidth_eq]

theorem add_shiftImm20_eq_ofNat (a : Word) (imm : BitVec 20) :
    a + shiftImm20 imm = BitVec.ofNat 32 (a.toNat + imm.toNat * 4096) := by
  rw [← toNat_shiftImm20]
  exact BitVec.add_def a (shiftImm20 imm)

/-- Settles O28: both results are the shifted immediate's number, and AUIPC's sum starts from its own `pc`. -/
theorem upperImmediates : Obligations.UpperImmediates :=
  ⟨rowDecodes_of_encU rfl fun _ => ⟨rfl, rfl⟩, rowDecodes_of_encU rfl fun _ => ⟨rfl, rfl⟩, fun s _ imm =>
    ⟨writesRegOnly_of_retireReg rfl (shiftImm20_eq_ofNat imm),
      writesRegOnly_of_retireReg rfl (add_shiftImm20_eq_ofNat s.pc imm)⟩⟩

end Sys2Proof.Machine
end

section
/-! The CSR instructions (46_csr R230 to R236): the rows their words match, and the exchange of `csr[k]` and `x[rd]`,
all that they write, with the operand a register or the zero-extended immediate. -/

namespace Sys2Proof.Machine

variable {i : Instr} {s : State}

/-- The shared end of the CSR instructions (R230) changes nothing else: `x[rd]` gets the value read before the write. -/
theorem exchangesCsr_of_next {rd : Reg} {k : CsrIdx} {v : Word}
    (h : exec i s = .next (((s.setCsr k v).setX rd (s.getCsr k)).setPc s.pcPlus4)) : ExchangesCsr i s rd k v :=
  ⟨_, h, fun r => (s.setCsr k v).getX_setX rd r (s.getCsr k),
    fun j => (State.setX_getCsr _ _ _ _).trans (s.getCsr_setCsr k j v), rfl, State.setX_byteAt _ _ _,
    State.setX_run _ _ _⟩

/-! ## New values bit by bit -/

/-- AND with the complement clears the bits of the second operand in the first. -/
theorem bitwise_andNot (a b : Word) : Bitwise (fun a b => a && !b) a b (a &&& ~~~b) := fun i hi => by
  rw [BitVec.getLsbD_and, BitVec.getLsbD_not, decide_eq_true hi, Bool.true_and]

theorem zextImm5_eq_ofNat (zimm : BitVec 5) : zextImm5 zimm = BitVec.ofNat 32 zimm.toNat :=
  (BitVec.ofNat_toNat 32 zimm).symm

/-- Settles O43: the index stands in the place of the I format's immediate, and `x[rs1]` is read before `x[rd]` is
written. -/
theorem csrRegisterForms : Obligations.CsrRegisterForms :=
  ⟨rowDecodes_of_encI rfl fun _ => ⟨rfl, rfl⟩, rowDecodes_of_encI rfl fun _ => ⟨rfl, rfl⟩,
    rowDecodes_of_encI rfl fun _ => ⟨rfl, rfl⟩, fun _ _ _ _ =>
    ⟨exchangesCsr_of_next rfl, ⟨_, bitwise_or _ _, exchangesCsr_of_next rfl⟩,
      ⟨_, bitwise_andNot _ _, exchangesCsr_of_next rfl⟩⟩⟩

/-- Settles O44: the immediate stands in the place of `rs1`, and its zero extension keeps its number. -/
theorem csrImmediateForms : Obligations.CsrImmediateForms := by
  refine ⟨rowDecodes_of_encI rfl fun _ => ⟨rfl, rfl⟩, rowDecodes_of_encI rfl fun _ => ⟨rfl, rfl⟩,
    rowDecodes_of_encI rfl fun _ => ⟨rfl, rfl⟩, fun _ _ zimm _ => ?_⟩
  rw [← zextImm5_eq_ofNat]
  exact ⟨exchangesCsr_of_next rfl, ⟨_, bitwise_or _ _, exchangesCsr_of_next rfl⟩,
    ⟨_, bitwise_andNot _ _, exchangesCsr_of_next rfl⟩⟩

end Sys2Proof.Machine
end

section
/-! The system instructions (47_system R250 to R252): the words of their rows, what ECALL saves and where it goes, and
that MRET and FENCE only advance `pc`. -/

namespace Sys2Proof.Machine

variable {i : Instr} {s t : State}

/-! ## The words of the rows (R94, R95) -/

/-- A row whose mask covers every bit matches its pattern alone. -/
theorem rowDecodes_of_word {p : Word} (h : decodeWord p = .ok i) : RowDecodes 0xFFFFFFFF#32 p fun _ => i := by
  intro w hw
  obtain rfl : w = p := BitVec.and_allOnes.symm.trans hw
  exact h

/-- The row of FENCE compares `funct3` alone, and the other fields are the instruction's own. -/
theorem rowDecodes_fence :
    RowDecodes 0x0000707F#32 0x0000000F#32 fun w => .fence (fFm w) (fPred w) (fSucc w) (fRs1 w) (fRd w) := by
  intro w hw
  obtain ⟨hop, h3⟩ := fields_of_funct3_row rfl hw
  exact decodeWord_eq_ok_iff_encode.2 ⟨rfl, encFence_of_keys hop h3⟩

/-- Settles O46: both end in the retirement that writes nothing. -/
theorem mretAndFence : Obligations.MretAndFence :=
  ⟨rowDecodes_of_word rfl, rowDecodes_fence, fun _ _ _ _ _ _ =>
    ⟨movesPcOnly_of_retireTo rfl, movesPcOnly_of_retireTo rfl⟩⟩

/-! ## ECALL (R250, 60_exceptions R267) -/

/-- ECALL answers the state with the cause written, the run Halted, and `pc` read from that state's bank. -/
theorem exec_ecall (s : State) : exec .ecall s = .next
    (((s.setCsr config.trapCauseCsr config.ecallCause).setRun .halted).setPc
      ((s.setCsr config.trapCauseCsr config.ecallCause).getCsr trapVectorCsr)) :=
  takeTrap_next.2 rfl

/-- Settles O45: the new `pc` is read after the cause is written, so it is the old vector unless the slots are one. -/
theorem ecallTrapEntry : Obligations.EcallTrapEntry :=
  ⟨rowDecodes_of_word rfl, fun s => ⟨_, exec_ecall s, fun j => s.getCsr_setCsr _ j _, rfl,
    fun distinct => s.getCsr_setCsr_other _ distinct.symm, rfl, fun _ => rfl, fun _ => rfl⟩⟩

end Sys2Proof.Machine
end

section
/-! The stops of a step (60_exceptions R261, R266, R279): which comes first, that the errors are exactly those of the
table, and how a run ends. -/

namespace Sys2Proof.Machine

variable {c : Config} {i : Instr} {s t : State} {f : Fault} {addr : Word} {n : Nat}

/-! ## The stops of a step, in their order (R266) -/

theorem step_of_fetch_error {e : AccessStop} (running : s.run = .running) (hf : fetch config s = .error e) :
    step s = (fetchStop e).outcome := by
  simp only [step, nextInstr, running, hf]

theorem step_of_fetch_unmatched {w : Word} (running : s.run = .running) (hf : fetch config s = .ok w)
    (hw : Unmatched w) : step s = .fault .unmatchedOpcode := by
  rw [Unmatched] at hw
  simp only [step, nextInstr, running, hf, hw, Stop.outcome]

theorem step_of_accessStop {e : AccessStop} (running : s.run = .running)
    (h : accessStop config s.pc 4 = some e) : step s = (fetchStop e).outcome :=
  step_of_fetch_error running (memRead_eq_error (w := .word) h)

theorem step_of_unmatched_bytes (running : s.run = .running) (accessible : Accessible config s.pc 4)
    (unmatched : decodeBytes config.byteOrder (fetchedBytes s) = .error .unmatchedOpcode) :
    step s = .fault .unmatchedOpcode :=
  step_of_fetch_unmatched running (fetch_eq_valueOf_fetchedBytes accessible) (decodeBytes_error.1 unmatched)

/-- Settles O17: the access at `pc` stops the step before anything is decoded, and the data access stops the
instruction. -/
theorem stepStopPriority : Obligations.StepStopPriority := fun _ running =>
  ⟨fun hm ha => step_of_accessStop running (accessStop_misaligned hm ha),
    fun ha below => step_of_accessStop running ((accessStop_eq_boundsStop ha).trans (boundsStop_bus below)),
    fun ha above past =>
      step_of_accessStop running ((accessStop_eq_boundsStop ha).trans (boundsStop_memory above past)),
    step_of_unmatched_bytes running,
    fun _ _ _ _ accessible decodes access =>
      ⟨step_of_fetchedBytes running accessible decodes, dataAccessStops_of_dataAccess access⟩⟩

/-! ## Where a bound check stops (R52, R53) -/

theorem boundsStop_eq_some_iff {e : AccessStop} : boundsStop c addr n = some e ↔
    (addr.toNat < c.dramBase.toNat ∧ e = .outOfBounds .bus) ∨
    (c.dramBase.toNat ≤ addr.toNat ∧ c.dramBase.toNat + c.dramSize < addr.toNat + n ∧
      e = .outOfBounds .memory) := by
  refine ⟨boundsStop_inv, ?_⟩
  rintro (⟨below, rfl⟩ | ⟨above, past, rfl⟩)
  · exact boundsStop_bus below
  · exact boundsStop_memory above past

/-- An access is out of bounds when it is not refused first and a bound check stops it. -/
theorem accessStop_eq_outOfBounds_iff {l : Layer} : accessStop c addr n = some (.outOfBounds l) ↔
    (c.misaligned = .refuse → addr.toNat % n = 0) ∧ boundsStop c addr n = some (.outOfBounds l) := by
  by_cases ha : c.misaligned = .refuse → addr.toNat % n = 0
  · rw [accessStop_eq_boundsStop ha, and_iff_right ha]
  · obtain ⟨hm, unaligned⟩ := Classical.not_imp.1 ha
    simp [accessStop_misaligned hm unaligned, hm, unaligned]

/-- The error `g` of an access that is out of bounds, by the two layers that find it so. -/
theorem exists_outOfBounds_iff (g : Layer → Fault) :
    (∃ l, accessStop c addr n = some (.outOfBounds l) ∧ f = g l) ↔
    (c.misaligned = .refuse → addr.toNat % n = 0) ∧
      ((addr.toNat < c.dramBase.toNat ∧ f = g .bus) ∨
       (c.dramBase.toNat ≤ addr.toNat ∧ c.dramBase.toNat + c.dramSize < addr.toNat + n ∧ f = g .memory)) := by
  simp only [accessStop_eq_outOfBounds_iff, and_assoc, exists_and_left]
  refine and_congr_right fun _ => ⟨?_, ?_⟩
  · rintro ⟨l, stop, rfl⟩
    rcases boundsStop_inv stop with ⟨below, hl⟩ | ⟨above, past, hl⟩ <;> cases hl
    · exact .inl ⟨below, rfl⟩
    · exact .inr ⟨above, past, rfl⟩
  · rintro (⟨below, rfl⟩ | ⟨above, past, rfl⟩)
    · exact ⟨.bus, boundsStop_bus below, rfl⟩
    · exact ⟨.memory, boundsStop_memory above past, rfl⟩

theorem loadBytes_eq_error_iff {m : Memory} {bytes : List Byte} {e : AccessStop} :
    loadBytes c m addr bytes = .error e ↔ boundsStop c addr bytes.length = some e := by
  cases hs : boundsStop c addr bytes.length with
  | none => simp [loadBytes_eq_ok (boundsStop_eq_none.1 hs)]
  | some e' => simp [loadBytes_eq_error hs]

/-! ## The errors of a step (R261) -/

theorem dataStop_eq_fault_iff {e : AccessStop} :
    dataStop e = .fault f ↔ ∃ l, e = .outOfBounds l ∧ f = .dataOutOfBounds l := by
  cases e <;> simp [dataStop, eq_comm]

theorem fetchStop_eq_fault_iff {e : AccessStop} :
    (fetchStop e).outcome = .fault f ↔ ∃ l, e = .outOfBounds l ∧ f = .fetchOutOfBounds l := by
  cases e <;> simp [fetchStop, Stop.outcome, eq_comm]

/-- An instruction's own error is that of its data access. -/
theorem exec_fault_iff : exec i s = .fault f ↔ ∃ base off n, dataAccess i = some (base, off, n) ∧
    ∃ l, accessStop config (effectiveAddress s base off) n = some (.outOfBounds l) ∧ f = .dataOutOfBounds l := by
  constructor
  · intro h
    have incomplete (t : State) : exec i s ≠ .next t := by simp [h]
    cases access : dataAccess i with
    | none =>
      obtain ⟨t, next⟩ := exec_completes_of_no_access s access
      exact absurd next (incomplete t)
    | some a =>
      obtain ⟨base, off, n⟩ := a
      refine ⟨base, off, n, rfl, ?_⟩
      cases stop : accessStop config (effectiveAddress s base off) n with
      | none =>
        obtain ⟨t, next⟩ := (exec_completes_iff_accessible access).2 (accessStop_none_iff.1 stop)
        exact absurd next (incomplete t)
      | some e =>
        obtain ⟨l, rfl, hf⟩ := dataStop_eq_fault_iff.1 ((exec_of_accessStop access stop).symm.trans h)
        exact ⟨l, rfl, hf⟩
  · rintro ⟨base, off, n, access, l, stop, rfl⟩
    exact exec_of_accessStop access stop

/-- The four bytes at `pc` decode to an instruction or are unmatched. -/
theorem decodeBytes_fetchedBytes (s : State) :
    decodeBytes config.byteOrder (fetchedBytes s) = .error .unmatchedOpcode ∨
    ∃ i, decodeBytes config.byteOrder (fetchedBytes s) = .ok (i, []) := by
  cases h : matchInstr (valueOf config.byteOrder (fetchedBytes s)) with
  | none => exact .inl (decodeBytes_error.2 (unmatched_iff.2 h))
  | some i => exact .inr ⟨i, decodeBytes_ok.2 (decodeWord_eq_ok_iff.2 h)⟩

/-- The errors of a step: of the access at `pc`, of decoding, of the instruction's data access. -/
theorem step_fault_iff : step s = .fault f ↔ s.run = .running ∧
    ((∃ l, accessStop config s.pc 4 = some (.outOfBounds l) ∧ f = .fetchOutOfBounds l) ∨
     (Accessible config s.pc 4 ∧ decodeBytes config.byteOrder (fetchedBytes s) = .error .unmatchedOpcode ∧
       f = .unmatchedOpcode) ∨
     (Accessible config s.pc 4 ∧ ∃ i, decodeBytes config.byteOrder (fetchedBytes s) = .ok (i, []) ∧
       exec i s = .fault f)) := by
  constructor
  · intro h
    have running : s.run = .running := by
      by_contra stuck
      rw [step_of_not_running stuck] at h
      cases h
    refine ⟨running, ?_⟩
    cases stop : accessStop config s.pc 4 with
    | some e =>
      obtain ⟨l, rfl, hf⟩ := fetchStop_eq_fault_iff.1 ((step_of_accessStop running stop).symm.trans h)
      exact .inl ⟨l, rfl, hf⟩
    | none =>
      have accessible : Accessible config s.pc 4 := accessStop_none_iff.1 stop
      rcases decodeBytes_fetchedBytes s with unmatched | ⟨i, decodes⟩
      · rw [step_of_unmatched_bytes running accessible unmatched] at h
        exact .inr (.inl ⟨accessible, unmatched, (Host.Outcome.fault.inj h).symm⟩)
      · rw [step_of_fetchedBytes running accessible decodes] at h
        exact .inr (.inr ⟨accessible, i, decodes, h⟩)
  · rintro ⟨running, ⟨l, stop, rfl⟩ | ⟨accessible, unmatched, rfl⟩ | ⟨accessible, i, decodes, faults⟩⟩
    · exact step_of_accessStop running stop
    · exact step_of_unmatched_bytes running accessible unmatched
    · exact (step_of_fetchedBytes running accessible decodes).trans faults

/-- Settles O18: the stops of the two accesses, with the bound checks written out and the alignment of `pc` drawn to the
front. -/
theorem faultsExactlyWhereListed : Obligations.FaultsExactlyWhereListed := by
  refine ⟨fun s f => ?_, fun _ _ _ _ => loadBytes_eq_error_iff.trans boundsStop_eq_some_iff,
    fun _ => ⟨rfl, rfl, rfl⟩, rfl⟩
  rw [step_fault_iff]
  simp only [exec_fault_iff, exists_outOfBounds_iff, Accessible, and_assoc, ← and_or_left, or_assoc, exists_and_left]

/-! ## The end of a run (R279) -/

/-- Only ECALL makes a Running state Halted. -/
theorem step_next_halted (h : step s = .next t) (halted : t.run = .halted) : exec .ecall s = .next t := by
  obtain ⟨running, _, i, _, _, hexec⟩ := step_next_inv h
  have hrun := (exec_next hexec).run_eq
  by_cases hi : i = .ecall
  · rwa [hi] at hexec
  · rw [if_neg hi, halted, running] at hrun
    cases hrun

theorem pc_and_cause_of_ecall (h : exec .ecall s = .next t) :
    t.pc = t.getCsr 0x305#12 ∧ t.getCsr config.trapCauseCsr = config.ecallCause := by
  obtain rfl := Host.Outcome.next.inj ((exec_ecall s).symm.trans h)
  exact ⟨rfl, s.getCsr_setCsr_same _ _⟩

theorem runEnd_succ_of_next (h : step s = .next t) :
    runEnd (n + 1) s = if t.run = .halted then some (.halted t) else runEnd n t := by
  rw [runEnd, h]

/-- A run that ends Halted made its last step into the state it ends in. -/
theorem runEnd_halted_inv (h : runEnd n s = some (.halted t)) : t.run = .halted ∧ ∃ u, step u = .next t := by
  induction n generalizing s with
  | zero => cases h
  | succ n ih =>
    cases hstep : step s with
    | next u =>
      rw [runEnd_succ_of_next hstep] at h
      split at h
      · next halted => cases h; exact ⟨halted, s, hstep⟩
      · exact ih h
    | fault | refused => rw [runEnd, hstep] at h; cases h

theorem runEnd_mono {m : Nat} {e : RunEnd} (h : runEnd n s = some e) (le : n ≤ m) : runEnd m s = some e := by
  induction n generalizing s m with
  | zero => cases h
  | succ n ih =>
    obtain ⟨m, rfl⟩ : ∃ k, m = k + 1 := ⟨m - 1, by omega⟩
    cases hstep : step s with
    | next u =>
      rw [runEnd_succ_of_next hstep] at h ⊢
      split at h
      · next halted => rwa [if_pos halted]
      · next goesOn => rw [if_neg goesOn]; exact ih h (Nat.le_of_succ_le_succ le)
    | fault | refused => rw [runEnd, hstep] at h ⊢; exact h

/-- Settles O59: the last step of a run that ends Halted is an ECALL's, and more steps change no end. -/
theorem endOfRun : Obligations.EndOfRun := by
  refine ⟨fun n s t h => ?_, fun _ _ _ _ => runEnd_mono⟩
  obtain ⟨halted, _, last⟩ := runEnd_halted_inv h
  exact ⟨halted, pc_and_cause_of_ecall (step_next_halted last halted)⟩

end Sys2Proof.Machine
end

section
/-! Reset (70_reset_and_hazards R290 to R296): the values of every configuration's reset state, and that the first step
after the load of an instruction runs it. -/

namespace Sys2Proof.Machine

variable {c : Config} {i : Instr}

/-! ## The CSR bank that holds a function -/

/-- A bank whose entries lie on the graph of `f`, and which lists every key where `f` is not what an unlisted key reads
as, reads as `f`. -/
theorem SparseMap.get_eq_of_graph {w : Nat} {m : List (Nat × BitVec w)} {f : Nat → BitVec w} {k : Nat}
    (onGraph : ∀ e ∈ m, e.2 = f e.1) (listed : f k ≠ SparseMap.unlisted w → ∃ e ∈ m, e.1 = k) :
    SparseMap.get m k = f k := by
  induction m with
  | nil =>
    by_contra h
    obtain ⟨e, he, -⟩ := listed (Ne.symm h)
    cases he
  | cons a rest ih =>
    obtain ⟨ha, onRest⟩ := List.forall_mem_cons.1 onGraph
    by_cases hk : a.1 = k
    · rw [SparseMap.get, if_pos hk, ha, hk]
    · rw [SparseMap.get, if_neg hk]
      refine ih onRest fun hf => ?_
      obtain ⟨e, he, rfl⟩ := listed hf
      exact ⟨e, List.mem_of_ne_of_mem (by rintro rfl; exact hk rfl) he, rfl⟩

/-! ## The reset state of a configuration (R290 to R294) -/

theorem getCsr_resetOf (c : Config) (k : CsrIdx) : (resetOf c).getCsr k = c.csrReset k := by
  have graph : SparseMap.get (resetOf c).csr k.toNat = c.csrReset (BitVec.ofNat 12 k.toNat) :=
    SparseMap.get_eq_of_graph (f := fun j => c.csrReset (BitVec.ofNat 12 j)) (k := k.toNat)
      (by simp [resetOf])
      (fun nonzero => ⟨(k.toNat, c.csrReset (BitVec.ofNat 12 k.toNat)),
        by simpa [resetOf, k.isLt] using nonzero, rfl⟩)
  rw [State.getCsr, graph, BitVec.ofNat_toNat, BitVec.setWidth_eq]

theorem getX_resetOf (c : Config) (r : Reg) :
    (resetOf c).getX r = if r = 2#5 then BitVec.ofNat 32 (c.dramBase.toNat + c.dramSize) else 0#32 := by
  have top : BitVec.ofNat 32 (c.dramBase.toNat + c.dramSize) = c.dramBase + BitVec.ofNat 32 c.dramSize := by
    rw [BitVec.ofNat_add, BitVec.ofNat_toNat, BitVec.setWidth_eq]
  have index : 2 = r.toNat ↔ r = 2#5 := by rw [← BitVec.toNat_inj]; exact eq_comm
  by_cases hr : r = 0#5
  · subst hr; rfl
  · simp [State.getX, hr, resetOf, Vector.getElem_set, index, top]

/-- Where every slot resets to 0 the bank lists nothing. -/
theorem csr_resetOf_eq_nil (zero : ∀ k, c.csrReset k = 0#32) : (resetOf c).csr = [] := by
  simp [resetOf, zero, SparseMap.unlisted]

theorem resetOf_config : resetOf config = State.reset := by
  have emptyBank : (resetOf config).csr = [] := csr_resetOf_eq_nil fun _ => rfl
  unfold resetOf at emptyBank ⊢
  dsimp only at emptyBank
  rw [emptyBank]
  rfl

/-- Settles O6: Memory lists nothing, and the registers and the bank read as `getX_resetOf` and `getCsr_resetOf` say. -/
theorem resetOfAnyConfiguration : Obligations.ResetOfAnyConfiguration :=
  ⟨fun c => ⟨fun _ => rfl, getX_resetOf c, getCsr_resetOf c, rfl, rfl⟩, resetOf_config⟩

/-! ## The reset state of the spec's parameters -/

theorem getX_reset (r : Reg) : State.reset.getX r =
    if r = 2#5 then BitVec.ofNat 32 (config.dramBase.toNat + config.dramSize) else 0#32 := by
  rw [← resetOf_config]
  exact getX_resetOf config r

theorem getCsr_reset (k : CsrIdx) : State.reset.getCsr k = 0#32 := rfl

/-- Settles O4: the registers as `getX_reset` says, and the top of memory as a number. -/
theorem resetValues : Obligations.ResetValues :=
  ⟨fun _ => rfl, fun r hr => (getX_reset r).trans (if_neg hr), getX_reset 2#5, getX_reset 2#5, State.getX_zero, rfl⟩

/-- Settles O5: the cause slot is not the vector's, so ECALL goes where the vector points at reset. -/
theorem resetPcAndCsrs : Obligations.ResetPcAndCsrs :=
  ⟨rfl, getCsr_reset, _, exec_ecall State.reset,
    (State.reset.getCsr_setCsr_other _ (by decide)).trans (getCsr_reset _), rfl⟩

/-! ## The boot sequence (R296) -/

/-- The access at `RESET_PC` happens. -/
theorem accessible_resetPc : Accessible config State.reset.pc 4 := by decide

/-- Where a fetch at `pc` succeeds, `storeFetchWord` stores the word's bytes there. -/
theorem storeFetchWord_eq_setMem {s : State} (w : Word) (h : Accessible c s.pc 4) :
    storeFetchWord c s w = s.setMem (writeBytes s.mem s.pc.toNat (bytesOf c.byteOrder .word w)) := by
  rw [storeFetchWord, memWrite_eq_ok (w := .word) (accessStop_none_iff.2 h)]

/-- The load of an instruction's bytes at the reset `pc` leaves the reset state with its word there. -/
theorem load_construct (w : Word) :
    Session.construct.load config.resetPc (bytesOf config.byteOrder .word w) =
      (.loading (State.reset.withFetchWord 32 w.toNat), .ok) := by
  have length : (bytesOf config.byteOrder .word w).length = 4 := length_bytesOf ..
  have nonempty : bytesOf config.byteOrder .word w ≠ [] := List.ne_nil_of_length_eq_add_one length
  have inBounds : InBounds config config.resetPc (bytesOf config.byteOrder .word w).length := by
    rw [length]; exact accessible_resetPc.2
  rw [State.withFetchWord_toNat, storeFetchWord_eq_setMem w accessible_resetPc]
  exact Session.load_loading nonempty (loadBytes_eq_ok inBounds)

/-- Settles O58: the state loaded is one whose step runs the stored word. -/
theorem bootRunsLoadedInstruction : Obligations.BootRunsLoadedInstruction := by
  rintro i image wellFormed rfl
  exact ⟨_, load_construct (encode i), rfl,
    congrArg Session.afterStep (step_of_withFetchWord rfl accessible_resetPc wellFormed)⟩

end Sys2Proof.Machine
end

section
/-! The staged pipeline (40_pipeline R111 to R123): after Fetch and Decode, the stages make of the bundle of each
classification what the meaning of its instruction makes of the state. -/

namespace Sys2Proof.Machine

variable {c : Config} {w : Word} {i : Instr} {s t : State} {d : DecodedInstr}

/-! ## The instruction of a word, by its classification -/

/-- The instruction that a word is when it is classified as `m`, its operands read from the word's fields. -/
def instrOf (m : Mnemonic) (w : Word) : Instr :=
  match m with
  | .lui => .lui (fRd w) (immURaw w)
  | .auipc => .auipc (fRd w) (immURaw w)
  | .jal => .jal (fRd w) (immJRaw w)
  | .jalr => .jalr (fRd w) (fRs1 w) (immIRaw w)
  | .beq => .beq (fRs1 w) (fRs2 w) (immBRaw w)
  | .bne => .bne (fRs1 w) (fRs2 w) (immBRaw w)
  | .blt => .blt (fRs1 w) (fRs2 w) (immBRaw w)
  | .bge => .bge (fRs1 w) (fRs2 w) (immBRaw w)
  | .bltu => .bltu (fRs1 w) (fRs2 w) (immBRaw w)
  | .bgeu => .bgeu (fRs1 w) (fRs2 w) (immBRaw w)
  | .lb => .lb (fRd w) (fRs1 w) (immIRaw w)
  | .lh => .lh (fRd w) (fRs1 w) (immIRaw w)
  | .lw => .lw (fRd w) (fRs1 w) (immIRaw w)
  | .lbu => .lbu (fRd w) (fRs1 w) (immIRaw w)
  | .lhu => .lhu (fRd w) (fRs1 w) (immIRaw w)
  | .sb => .sb (fRs1 w) (fRs2 w) (immSRaw w)
  | .sh => .sh (fRs1 w) (fRs2 w) (immSRaw w)
  | .sw => .sw (fRs1 w) (fRs2 w) (immSRaw w)
  | .addi => .addi (fRd w) (fRs1 w) (immIRaw w)
  | .slti => .slti (fRd w) (fRs1 w) (immIRaw w)
  | .sltiu => .sltiu (fRd w) (fRs1 w) (immIRaw w)
  | .xori => .xori (fRd w) (fRs1 w) (immIRaw w)
  | .ori => .ori (fRd w) (fRs1 w) (immIRaw w)
  | .andi => .andi (fRd w) (fRs1 w) (immIRaw w)
  | .slli => .slli (fRd w) (fRs1 w) (fRs2 w)
  | .srli => .srli (fRd w) (fRs1 w) (fRs2 w)
  | .srai => .srai (fRd w) (fRs1 w) (fRs2 w)
  | .add => .add (fRd w) (fRs1 w) (fRs2 w)
  | .sub => .sub (fRd w) (fRs1 w) (fRs2 w)
  | .sll => .sll (fRd w) (fRs1 w) (fRs2 w)
  | .slt => .slt (fRd w) (fRs1 w) (fRs2 w)
  | .sltu => .sltu (fRd w) (fRs1 w) (fRs2 w)
  | .xor => .xor (fRd w) (fRs1 w) (fRs2 w)
  | .srl => .srl (fRd w) (fRs1 w) (fRs2 w)
  | .sra => .sra (fRd w) (fRs1 w) (fRs2 w)
  | .or => .or (fRd w) (fRs1 w) (fRs2 w)
  | .and => .and (fRd w) (fRs1 w) (fRs2 w)
  | .fence => .fence (fFm w) (fPred w) (fSucc w) (fRs1 w) (fRd w)
  | .csrrw => .csrrw (fRd w) (fRs1 w) (fCsr w)
  | .csrrs => .csrrs (fRd w) (fRs1 w) (fCsr w)
  | .csrrc => .csrrc (fRd w) (fRs1 w) (fCsr w)
  | .csrrwi => .csrrwi (fRd w) (fRs1 w) (fCsr w)
  | .csrrsi => .csrrsi (fRd w) (fRs1 w) (fCsr w)
  | .csrrci => .csrrci (fRd w) (fRs1 w) (fCsr w)
  | .ecall => .ecall
  | .mret => .mret

/-- A word that decodes is the instruction of its classification. -/
theorem instrOf_of_matchInstr (h : matchInstr w = some i) : instrOf i.mnemonic w = i := by
  obtain ⟨wellFormed, rfl⟩ := encode_of_matchInstr h
  cases i
  case jal => simp [instrOf, Instr.mnemonic, encode, immJRaw_encJ _ _ _ wellFormed]
  case beq | bne | blt | bge | bltu | bgeu =>
    simp [instrOf, Instr.mnemonic, encode, immBRaw_encB _ _ _ _ _ wellFormed]
  all_goals simp [instrOf, Instr.mnemonic, encode]

/-! ## The stages after Decode, by how they end (R117 to R122) -/

/-- Execute, Writeback and the program-counter update. -/
def stagesAfterDecode (c : Config) (d : DecodedInstr) (s : State) : Outcome :=
  match writebackStage c d (executeStage d s.pc) s with
  | .error e => dataStop e
  | .ok t => .next (pcUpdate d (executeStage d s.pc) t)

theorem stagesAfterDecode_of_ok (h : writebackStage c d (executeStage d s.pc) s = .ok t) :
    stagesAfterDecode c d s = .next (pcUpdate d (executeStage d s.pc) t) := by
  rw [stagesAfterDecode, h]

/-- Where no target was found and Writeback left `pc`, the step goes on at `pc + 4`. -/
theorem stagesAfterDecode_sequential (hw : writebackStage c d (executeStage d s.pc) s = .ok t)
    (hp : pcUpdate d (executeStage d s.pc) t = t.setPc t.pcPlus4) (hpc : t.pc = s.pc) :
    stagesAfterDecode c d s = .next (t.setPc s.pcPlus4) := by
  rw [stagesAfterDecode_of_ok hw, hp, State.pcPlus4, State.pcPlus4, hpc]

/-- A branch target is present only when taken (R118). -/
theorem stagesAfterDecode_branch {taken : Bool} {off : Word} (hop : d.op ≠ .ecall)
    (hw : writebackStage c d (executeStage d s.pc) s = .ok s)
    (he : executeStage d s.pc = .branch taken (s.pc + off)) : stagesAfterDecode c d s = branchOp taken off s := by
  rw [stagesAfterDecode_of_ok hw, he]
  cases taken with
  | true => rfl
  | false => exact congrArg Host.Outcome.next (if_neg hop)

theorem stagesAfterDecode_load {width : Width} {ext : Word → Word} {addr : Word}
    (hw : writebackStage c d (executeStage d s.pc) s = writebackLoad c d addr width ext s)
    (hp : ∀ t, pcUpdate d (executeStage d s.pc) t = t.setPc t.pcPlus4) :
    stagesAfterDecode c d s = loadOp c width ext d.rd addr s := by
  unfold writebackLoad at hw
  unfold loadOp
  cases hread : memRead c s.mem addr width with
  | ok v => rw [hread] at hw; exact stagesAfterDecode_sequential hw (hp _) (s.setX_pc _ _)
  | error e => rw [hread] at hw; rw [stagesAfterDecode, hw]

theorem stagesAfterDecode_store {width : Width} {addr : Word}
    (hw : writebackStage c d (executeStage d s.pc) s = writebackStore c d addr width s)
    (hp : ∀ t, pcUpdate d (executeStage d s.pc) t = t.setPc t.pcPlus4) :
    stagesAfterDecode c d s = storeOp c width addr d.rs2Data s := by
  unfold writebackStore at hw
  unfold storeOp
  cases hwrite : memWrite c s.mem addr width d.rs2Data with
  | ok m => rw [hwrite] at hw; exact stagesAfterDecode_sequential hw (hp _) rfl
  | error e => rw [hwrite] at hw; rw [stagesAfterDecode, hw]

/-! ## Every classification -/

/-- The amount of an immediate shift is the low five bits of the I format's immediate, in the place of `rs2`. -/
theorem shiftAmount_immIRaw_eq_fRs2 (w : Word) : shiftAmount (sextImm12 (immIRaw w)) = (fRs2 w).toNat :=
  (shiftAmount_immIRaw w).trans (toNat_field w 20 5).symm

/-- The stages after Fetch make of a classified word what the meaning of its instruction makes of the state. -/
theorem stagesAfterFetch_of_classify {m : Mnemonic} (h : classify w = some m) :
    stagesAfterFetch config w s = exec (instrOf m w) s := by
  rw [stagesAfterFetch, decodeStage, h]
  change stagesAfterDecode config _ s = _
  cases m
  case jal | jalr => rfl
  case ecall => exact (exec_ecall s).symm
  case beq | bne | blt | bge | bltu | bgeu => exact stagesAfterDecode_branch (by simp) rfl rfl
  case lb | lh | lw | lbu | lhu => exact stagesAfterDecode_load rfl fun _ => rfl
  case sb | sh | sw => exact stagesAfterDecode_store rfl fun _ => rfl
  case fence | mret => exact stagesAfterDecode_sequential rfl rfl rfl
  case csrrw | csrrs | csrrc | csrrwi | csrrsi | csrrci =>
    exact stagesAfterDecode_sequential rfl rfl (State.setX_pc _ _ _)
  case slli | srli | srai =>
    simp only [instrOf, exec, execSlli, execSrli, execSrai, ← shiftAmount_immIRaw_eq_fRs2]
    exact stagesAfterDecode_sequential rfl rfl (s.setX_pc _ _)
  all_goals exact stagesAfterDecode_sequential rfl rfl (s.setX_pc _ _)

/-! ## The whole step -/

theorem stagesAfterFetch_of_matchInstr (h : matchInstr w = some i) : stagesAfterFetch config w s = exec i s := by
  rw [stagesAfterFetch_of_classify (classify_of_matchInstr h), instrOf_of_matchInstr h]

theorem stagesAfterFetch_of_no_match (h : matchInstr w = none) :
    stagesAfterFetch c w s = .fault .unmatchedOpcode := by
  rw [stagesAfterFetch, decodeStage, classify_eq_none_iff.2 h]

/-- Settles O19: the run state and Fetch stop both steps alike, and what was fetched is unmatched or one instruction. -/
theorem stagedPipelineEqualsStep : Obligations.StagedPipelineEqualsStep := by
  intro s
  cases hrun : s.run with
  | halted | faulted =>
    rw [step_of_not_running (by simp [hrun]), pipelineStep, hrun]
  | running =>
    cases hf : fetch config s with
    | error e => rw [step_of_fetch_error hrun hf, pipelineStep, hrun, hf]
    | ok w =>
      have fetched : pipelineStep config s = stagesAfterFetch config w s := by rw [pipelineStep, hrun, hf]
      cases hm : matchInstr w with
      | none => rw [fetched, stagesAfterFetch_of_no_match hm, step_of_fetch_unmatched hrun hf (unmatched_iff.2 hm)]
      | some i =>
        have decodes : nextInstr config s = .ok i := nextInstr_eq_ok.2 ⟨hrun, w, hf, decodeWord_eq_ok_iff.2 hm⟩
        rw [fetched, stagesAfterFetch_of_matchInstr hm, step_eq_exec decodes]

end Sys2Proof.Machine
end
